-- ==== Sys2Proof/Word.lean ====
section
/-! DEFINITION. The widths the block has (R5, R7 and R18 of spec/: identifier 29 bits, payload bytes 8, fields 8, 16, 32 and 64 bits, differences 17). Bit 0 is the least significant bit (R7). -/

namespace Sys2Proof

/-- A byte: 8 bits (R7). -/
abbrev Byte := BitVec 8

/-- A 29-bit CAN identifier (R5: ID_BITS; R15). -/
abbrev CanId := BitVec 29

/-- An unsigned 16-bit field (R7, R18). -/
abbrev U16 := BitVec 16

/-- A signed 16-bit field, in two's complement; its value is `toInt` (R7, R18). -/
abbrev S16 := BitVec 16

/-- A signed 17-bit difference, in two's complement; its value is `toInt` (R18, R114 c). -/
abbrev S17 := BitVec 17

/-- An unsigned 32-bit field (R18). -/
abbrev U32 := BitVec 32

/-- The 64-bit alarm mask (R18, R69). -/
abbrev U64 := BitVec 64

end Sys2Proof
end

