-- ==== Sys2Proof/Config.lean ====
section
/-! DEFINITION. The parameters of R5 and the constants R5 calls FIXED. `Params` is plain data, so State can carry it; `Config` is what the functions of the block take, with P_CHK as the function it is. The OPEN parameters stand behind opaque constants. -/

namespace Sys2Proof

/-- SYNC, the envelope's sync byte (R5: FIXED, 0xAA). -/
def SYNC : Byte := 0xAA

/-- MAX_LEN, the largest payload length (R5: FIXED, 8). -/
abbrev MAX_LEN : Nat := 8

/-- HDR_LEN, the bytes of an envelope before the data (R5: FIXED, 7). -/
abbrev HDR_LEN : Nat := 7

/-- P_ID_ORDER: the byte order of the envelope's id field (R5, R35). -/
inductive IdOrder where
  | LE
  | BE
deriving DecidableEq, Repr

/-- Which function P_CHK is: R5's default `sum8`, or another total function from bytes to a byte
(R82), of which nothing is known. Plain data, so that State can name the choice. DESIGN CHOICE, log entry 4, safe. -/
inductive Checksum where
  | sum8
  | other (k : Nat)
deriving DecidableEq, Repr

/-- The place and polarity of one prohibition flag in byte 3 of command 0x85 (R5, R72). -/
structure FlagPos where
  /-- the bit index, 0..7 -/
  bit : Fin 8
  /-- the value of the bit that means "prohibited" (true is 1) -/
  prohibitedWhen : Bool
deriving DecidableEq, Repr

/-- The parameters of R5 that are not FIXED, as plain data. -/
structure Params where
  /-- P_ID_ORDER -/
  idOrder : IdOrder
  /-- P_CHK -/
  chk : Checksum
  /-- P_TX_TYPE -/
  txType : Byte
  /-- P_CONT_USED -/
  contUsed : Bool
  /-- P_LIMIT_I_SIGNED -/
  limitISigned : Bool
  /-- P_FLAG_CHG -/
  flagChg : FlagPos
  /-- P_FLAG_DIS -/
  flagDis : FlagPos
  /-- P_FLAG_HARD_DIS -/
  flagHardDis : FlagPos
deriving DecidableEq, Repr

/-- The parameters as the block's functions take them: P_CHK is any total function (R82). -/
structure Config where
  /-- P_ID_ORDER -/
  idOrder : IdOrder
  /-- P_CHK -/
  chk : List Byte → Byte
  /-- P_TX_TYPE -/
  txType : Byte
  /-- P_CONT_USED -/
  contUsed : Bool
  /-- P_LIMIT_I_SIGNED -/
  limitISigned : Bool
  /-- P_FLAG_CHG -/
  flagChg : FlagPos
  /-- P_FLAG_DIS -/
  flagDis : FlagPos
  /-- P_FLAG_HARD_DIS -/
  flagHardDis : FlagPos

/-- P_TX_TYPE is OPEN: no default (R5, D4). Uninterpreted. Log entry 3, safe. -/
opaque Config.openTxType : Byte

/-- The bit index of P_FLAG_CHG is OPEN (R5, R72, D17). Uninterpreted. Log entry 3, safe. -/
opaque Config.openFlagChgBit : Fin 8

/-- The bit index of P_FLAG_DIS is OPEN (R5, R72, D17). Uninterpreted. Log entry 3, safe. -/
opaque Config.openFlagDisBit : Fin 8

/-- The bit index of P_FLAG_HARD_DIS is OPEN (R5, R72, D17). Uninterpreted. Log entry 3, safe. -/
opaque Config.openFlagHardDisBit : Fin 8

/-- The checksum functions other than `sum8`: "any total function" (R82). Uninterpreted. Log entry 4, safe. -/
opaque Config.otherChecksum : Nat → List Byte → Byte

/-- The parameters at R5's defaults; where R5 gives none, the opaque constants. Log entry 2. -/
def Params.default : Params where
  idOrder := .LE
  chk := .sum8
  txType := Config.openTxType
  contUsed := true
  limitISigned := false
  flagChg := ⟨Config.openFlagChgBit, true⟩
  flagDis := ⟨Config.openFlagDisBit, true⟩
  flagHardDis := ⟨Config.openFlagHardDisBit, true⟩

end Sys2Proof
end

