-- ==== Sys2Proof/Syntax.lean ====
section
/-! DEFINITION. The abstract syntax: the values that flow through the block's front half (frame, identifier, framer event) and `Instr`, one constructor for each of the 22 rows of spec/opcode_table.json. -/

namespace Sys2Proof

/-- A CAN frame (R15): the envelope's type byte, the 29-bit identifier, the length byte and the payload. -/
structure Frame where
  ftype : Byte
  id : CanId
  len : Nat
  payload : List Byte
deriving DecidableEq, Repr

/-- A parsed identifier (R20). -/
structure Ident where
  pointToPoint : Bool
  commandCode : Byte
  destinationAddress : Byte
  sourceAddress : Byte
  continuation : Bool
deriving DecidableEq, Repr

/-- A framer event (R171). -/
inductive Event where
  /-- a byte other than 0xAA stood at the head of the buffer and was discarded (R173) -/
  | resync (b : Byte)
  /-- a complete candidate's last byte differs from the checksum of its body (R174) -/
  | checksumMismatch
  /-- a candidate's length byte is 9..255 (R175) -/
  | lenError (len : Byte)
deriving DecidableEq, Repr

/-- What a frame carries beside its command code: the operands of a command row (R52, R15). Identifier
bit 3 is held as it stands in the identifier, whatever P_CONT_USED says, and bits 2..0 are kept, since
the frame that is output shows them (R81). -/
structure FrameArgs where
  /-- the envelope's type byte -/
  ftype : Byte
  /-- identifier bit 28 -/
  ptp : Bool
  /-- identifier bits 19..12 -/
  dst : Byte
  /-- identifier bits 11..4 -/
  src : Byte
  /-- identifier bit 3 -/
  cont : Bool
  /-- identifier bits 2..0 -/
  low : BitVec 3
  /-- the payload bytes, 0..8 of them -/
  payload : List Byte
deriving DecidableEq, Repr

/-- The instructions (R6, R53). The first twelve are command frames, carried in the byte stream; the
others are the host's steps and pure functions, which have no encoding there. -/
inductive Instr where
  /-- LIMITS, command 0x80 (R60, R120) -/
  | limits (f : FrameArgs)
  /-- SOCSOH, command 0x81 (R61, R121) -/
  | socsoh (f : FrameArgs)
  /-- PACKVI, command 0x82 (R62, R122, R123) -/
  | packvi (f : FrameArgs)
  /-- CELLV, command 0x83 (R63, R124) -/
  | cellv (f : FrameArgs)
  /-- CELLT, command 0x84 (R64, R125) -/
  | cellt (f : FrameArgs)
  /-- OPSTAT, command 0x85 (R65, R72, R126) -/
  | opstat (f : FrameArgs)
  /-- CYCLES, command 0x86 (R66, R127) -/
  | cycles (f : FrameArgs)
  /-- ENERGY, command 0x87 (R67, R128) -/
  | energy (f : FrameArgs)
  /-- TEXT, command 0x8F (R68, R129) -/
  | text (f : FrameArgs)
  /-- ALARM, command 0xC0 (R69, R150) -/
  | alarm (f : FrameArgs)
  /-- OPAQUE, command 0xD0 (R70, R130) -/
  | opaqueCode (f : FrameArgs)
  /-- RAW, every other command code (R71, R131) -/
  | raw (code : Byte) (f : FrameArgs)
  /-- PUSH(b), a step (R80) -/
  | push (b : Byte)
  /-- RESET, a step (R85) -/
  | reset
  /-- FLUSH, a step (R86) -/
  | flush
  /-- ENVENC(t, id, payload), a pure function (R87); `none` stands for P_TX_TYPE, "when the host has no other value" -/
  | envenc (t : Option Byte) (id : Nat) (payload : List Byte)
  /-- IDDEC(id), a pure function (R100); the domain is 0..0x1FFFFFFF -/
  | iddec (id : Nat)
  /-- IDENC(f), a pure function (R101); the domain of the three byte fields is 0..255 -/
  | idenc (ptp : Bool) (code dst src : Nat) (cont : Bool)
  /-- DECODE(c, pay), a pure function (R110, R111) -/
  | decode (c : Byte) (pay : List Byte)
  /-- ALARMDEC(pay), a pure function (R150) -/
  | alarmdec (pay : List Byte)
  /-- MKFRAME(e), a pure function (R81) -/
  | mkframe (e : List Byte)
  /-- SCAN(xs), a pure function (R84) -/
  | scan (xs : List Byte)
deriving DecidableEq, Repr

/-- A chunk of bytes handed over at once is the sequence of PUSH steps of its bytes (R17, R194). -/
def Instr.chunk (bs : List Byte) : List Instr := bs.map .push

end Sys2Proof
end

