-- ==== Sys2Proof/WellFormed.lean ====
section
/-! DEFINITION. When a term of `Instr` is an instruction of the spec: the domains of R15, R53, R81, R87, R100, R101, R110 and R150. -/

namespace Sys2Proof

/-- The eleven command codes that have a row of their own (R53). -/
def namedCodes : List Byte :=
  [0x80, 0x81, 0x82, 0x83, 0x84, 0x85, 0x86, 0x87, 0x8F, 0xC0, 0xD0]

/-- A CAN payload has 0..8 bytes (R15, R31). -/
def payloadOk (pay : List Byte) : Bool := pay.length ≤ MAX_LEN

/-- An envelope's shape: `8 + e[6]` bytes with a legal length byte (R50, R51). -/
def envelopeShaped (e : List Byte) : Bool :=
  (e.getD 6 0).toNat ≤ MAX_LEN && e.length == 8 + (e.getD 6 0).toNat

/-- The instruction lies in the domain the spec gives it. -/
def Instr.wellFormed : Instr → Bool
  | .limits f => payloadOk f.payload
  | .socsoh f => payloadOk f.payload
  | .packvi f => payloadOk f.payload
  | .cellv f => payloadOk f.payload
  | .cellt f => payloadOk f.payload
  | .opstat f => payloadOk f.payload
  | .cycles f => payloadOk f.payload
  | .energy f => payloadOk f.payload
  | .text f => payloadOk f.payload
  | .alarm f => payloadOk f.payload
  | .opaqueCode f => payloadOk f.payload
  | .raw code f => !(namedCodes.contains code) && payloadOk f.payload
  | .push _ => true
  | .reset => true
  | .flush => true
  | .envenc _ id pay => decide (id < 2 ^ 29) && payloadOk pay
  | .iddec id => decide (id < 2 ^ 29)
  | .idenc _ code dst src _ => decide (code < 256) && decide (dst < 256) && decide (src < 256)
  | .decode _ pay => payloadOk pay
  | .alarmdec pay => pay.length == 8
  | .mkframe e => envelopeShaped e
  | .scan _ => true

end Sys2Proof
end

