-- ==== Sys2Proof/Decode.lean ====
section
/-! DEFINITION. From bytes to instructions and back: the checksum (R82), the identifier codec (R100, R101), the envelope (R50, R81, R87), the framer's tests at the head of a byte list (R80, R178), the command-code map (R53), `decode` and then `encode`, and the opcode table's rows. -/

namespace Sys2Proof

/-! ## The checksum -/

/-- `sum8`, the default P_CHK: the sum of the bytes modulo 256 (R82). -/
def sum8 (xs : List Byte) : Byte := BitVec.ofNat 8 (xs.map BitVec.toNat).sum

/-- The function a choice of P_CHK stands for (R5, R82). -/
def Checksum.apply : Checksum → List Byte → Byte
  | .sum8 => Sys2Proof.sum8
  | .other k => Config.otherChecksum k

/-- The parameters as the block's functions take them. -/
def Params.config (p : Params) : Config where
  idOrder := p.idOrder
  chk := p.chk.apply
  txType := p.txType
  contUsed := p.contUsed
  limitISigned := p.limitISigned
  flagChg := p.flagChg
  flagDis := p.flagDis
  flagHardDis := p.flagHardDis

/-! ## The identifier codec -/

/-- IDDEC (R100): bit 28, bits 27..20, 19..12, 11..4, and bit 3 when P_CONT_USED. -/
def iddec (contUsed : Bool) (id : CanId) : Ident where
  pointToPoint := id.getLsbD 28
  commandCode := id.extractLsb' 20 8
  destinationAddress := id.extractLsb' 12 8
  sourceAddress := id.extractLsb' 4 8
  continuation := contUsed && id.getLsbD 3

/-- IDENC (R101): the five fields, each shifted to its place and OR-ed; bits 2..0 are 0. -/
def idenc (f : Ident) : CanId :=
  ((BitVec.ofBool f.pointToPoint).setWidth 29 <<< 28) |||
  (f.commandCode.setWidth 29 <<< 20) |||
  (f.destinationAddress.setWidth 29 <<< 12) |||
  (f.sourceAddress.setWidth 29 <<< 4) |||
  ((BitVec.ofBool f.continuation).setWidth 29 <<< 3)

/-! ## Frames -/

/-- The operands a frame carries beside its command code. -/
def Frame.args (f : Frame) : FrameArgs where
  ftype := f.ftype
  ptp := f.id.getLsbD 28
  dst := f.id.extractLsb' 12 8
  src := f.id.extractLsb' 4 8
  cont := f.id.getLsbD 3
  low := f.id.extractLsb' 0 3
  payload := f.payload

/-- The command code of a frame, identifier bits 27..20 (R53). -/
def Frame.code (f : Frame) : Byte := f.id.extractLsb' 20 8

/-- The identifier of the frame a command row stands for: IDENC of its fields, with bits 2..0 as carried (R52). -/
def FrameArgs.id (a : FrameArgs) (code : Byte) : CanId :=
  idenc ⟨a.ptp, code, a.dst, a.src, a.cont⟩ ||| a.low.setWidth 29

/-- The CAN frame a command row stands for (R15). -/
def FrameArgs.frame (a : FrameArgs) (code : Byte) : Frame where
  ftype := a.ftype
  id := a.id code
  len := a.payload.length
  payload := a.payload

/-- The 32-bit id field of an envelope, bytes 2..5, in P_ID_ORDER (R35, R81). -/
def id32 (o : IdOrder) (e : List Byte) : BitVec 32 :=
  match o with
  | .LE => (e.getD 2 0).setWidth 32 ||| ((e.getD 3 0).setWidth 32 <<< 8) |||
      ((e.getD 4 0).setWidth 32 <<< 16) ||| ((e.getD 5 0).setWidth 32 <<< 24)
  | .BE => ((e.getD 2 0).setWidth 32 <<< 24) ||| ((e.getD 3 0).setWidth 32 <<< 16) |||
      ((e.getD 4 0).setWidth 32 <<< 8) ||| (e.getD 5 0).setWidth 32

/-- MKFRAME (R81): type byte 1, id32[28:0], length byte 6, payload bytes 7..6+len. -/
def mkFrame (o : IdOrder) (e : List Byte) : Frame where
  ftype := e.getD 1 0
  id := (id32 o e).setWidth 29
  len := (e.getD 6 0).toNat
  payload := (e.drop HDR_LEN).take (e.getD 6 0).toNat

/-! ## The tests at the head of a byte list -/

/-- What the framer's tests say of the bytes at the head of a list (R80, R178). -/
inductive Head where
  /-- no byte, or an incomplete header, or data or checksum incomplete: wait -/
  | wait
  /-- the first byte is discarded, with this event -/
  | reject (e : Event)
  /-- a valid envelope of `8 + len` bytes stands at the head -/
  | envelope (len : Nat)
deriving DecidableEq, Repr

/-- R80's tests in R178's order: sync byte, header complete, length legal, envelope complete, checksum. -/
def headOf (chk : List Byte → Byte) (bs : List Byte) : Head :=
  match bs with
  | [] => .wait
  | b :: body =>
    if b ≠ SYNC then .reject (.resync b)
    else if bs.length < HDR_LEN then .wait
    else if MAX_LEN < (bs.getD 6 0).toNat then .reject (.lenError (bs.getD 6 0))
    else if bs.length < 8 + (bs.getD 6 0).toNat then .wait
    else if bs.getD (7 + (bs.getD 6 0).toNat) 0 ≠ chk (body.take (6 + (bs.getD 6 0).toNat)) then
      .reject .checksumMismatch
    else .envelope (bs.getD 6 0).toNat

/-! ## The command-code map and decode -/

/-- R53's map from the command code to the row; every code that is not named is RAW. -/
def instrOfCode (c : Byte) (a : FrameArgs) : Instr :=
  if c = 0x80 then .limits a
  else if c = 0x81 then .socsoh a
  else if c = 0x82 then .packvi a
  else if c = 0x83 then .cellv a
  else if c = 0x84 then .cellt a
  else if c = 0x85 then .opstat a
  else if c = 0x86 then .cycles a
  else if c = 0x87 then .energy a
  else if c = 0x8F then .text a
  else if c = 0xC0 then .alarm a
  else if c = 0xD0 then .opaqueCode a
  else .raw c a

/-- The instruction a CAN frame is (R6: "one CAN frame"). -/
def Frame.instr (f : Frame) : Instr := instrOfCode f.code f.args

/-- What decoding a byte list gives: an instruction and the bytes behind it, or a named reason why not. -/
inductive Decoded where
  | instr (i : Instr) (rest : List Byte)
  /-- the bytes so far are no whole envelope -/
  | incomplete
  /-- no envelope starts here; the event says why -/
  | rejected (e : Event)
deriving DecidableEq, Repr

/-- The decoder, total on any bytes (R80, R81, R53). -/
def decode (cfg : Config) (bs : List Byte) : Decoded :=
  match headOf cfg.chk bs with
  | .wait => .incomplete
  | .reject e => .rejected e
  | .envelope len => .instr (mkFrame cfg.idOrder (bs.take (8 + len))).instr (bs.drop (8 + len))

/-! ## Encode -/

/-- The four id bytes of an envelope in P_ID_ORDER (R87, R35). -/
def idBytes (o : IdOrder) (w : BitVec 32) : List Byte :=
  match o with
  | .LE => [w.extractLsb' 0 8, w.extractLsb' 8 8, w.extractLsb' 16 8, w.extractLsb' 24 8]
  | .BE => [w.extractLsb' 24 8, w.extractLsb' 16 8, w.extractLsb' 8 8, w.extractLsb' 0 8]

/-- The bytes of an envelope around a 32-bit id field and a payload (R50). -/
def envelopeOf (cfg : Config) (t : Byte) (w : BitVec 32) (pay : List Byte) : List Byte :=
  let body := t :: (idBytes cfg.idOrder w ++ (BitVec.ofNat 8 pay.length :: pay))
  SYNC :: (body ++ [cfg.chk body])

/-- ENVENC on its domain (R87): bits 31..29 of the id field are zero. -/
def envenc (cfg : Config) (t : Byte) (id : CanId) (pay : List Byte) : List Byte :=
  envelopeOf cfg t (id.setWidth 32) pay

/-- The command code and the operands of a command row; `none` for the host's operations, which have no encoding. -/
def Instr.carried : Instr → Option (Byte × FrameArgs)
  | .limits a => some (0x80, a)
  | .socsoh a => some (0x81, a)
  | .packvi a => some (0x82, a)
  | .cellv a => some (0x83, a)
  | .cellt a => some (0x84, a)
  | .opstat a => some (0x85, a)
  | .cycles a => some (0x86, a)
  | .energy a => some (0x87, a)
  | .text a => some (0x8F, a)
  | .alarm a => some (0xC0, a)
  | .opaqueCode a => some (0xD0, a)
  | .raw c a => some (c, a)
  | .push _ => none
  | .reset => none
  | .flush => none
  | .envenc _ _ _ => none
  | .iddec _ => none
  | .idenc _ _ _ _ _ => none
  | .decode _ _ => none
  | .alarmdec _ => none
  | .mkframe _ => none
  | .scan _ => none

/-- The envelope that carries a command row (R6, R56, R87); `none` for an operation without an encoding. -/
def encode (cfg : Config) (i : Instr) : Option (List Byte) :=
  i.carried.map fun p => envenc cfg p.2.ftype (p.2.id p.1) p.2.payload

/-! ## The opcode table -/

/-- One encoded row of opcode_table.json: a match on the 29-bit identifier (R53). -/
structure OpcodeRow where
  mnemonic : String
  mask : CanId
  pattern : CanId
deriving DecidableEq, Repr

/-- Does an identifier match a row? -/
def OpcodeRow.matches (r : OpcodeRow) (id : CanId) : Bool := (id &&& r.mask) == r.pattern

/-- The eleven rows with a mask (R53). -/
def opcodeRows : List OpcodeRow :=
  [⟨"LIMITS", 0x0FF00000, 0x08000000⟩, ⟨"SOCSOH", 0x0FF00000, 0x08100000⟩,
   ⟨"PACKVI", 0x0FF00000, 0x08200000⟩, ⟨"CELLV", 0x0FF00000, 0x08300000⟩,
   ⟨"CELLT", 0x0FF00000, 0x08400000⟩, ⟨"OPSTAT", 0x0FF00000, 0x08500000⟩,
   ⟨"CYCLES", 0x0FF00000, 0x08600000⟩, ⟨"ENERGY", 0x0FF00000, 0x08700000⟩,
   ⟨"TEXT", 0x0FF00000, 0x08F00000⟩, ⟨"ALARM", 0x0FF00000, 0x0C000000⟩,
   ⟨"OPAQUE", 0x0FF00000, 0x0D000000⟩]

/-- The fallback row, "selected only when none of the eleven rows above matches" (opcode_table.json, R53). -/
def fallbackRow : OpcodeRow := ⟨"RAW", 0, 0⟩

/-- The row that an identifier selects (R53). -/
def rowOf (id : CanId) : OpcodeRow := (opcodeRows.find? (·.matches id)).getD fallbackRow

/-- The row's mnemonic as opcode_table.json spells it. -/
def Instr.mnemonic : Instr → String
  | .limits _ => "LIMITS"
  | .socsoh _ => "SOCSOH"
  | .packvi _ => "PACKVI"
  | .cellv _ => "CELLV"
  | .cellt _ => "CELLT"
  | .opstat _ => "OPSTAT"
  | .cycles _ => "CYCLES"
  | .energy _ => "ENERGY"
  | .text _ => "TEXT"
  | .alarm _ => "ALARM"
  | .opaqueCode _ => "OPAQUE"
  | .raw _ _ => "RAW"
  | .push _ => "PUSH"
  | .reset => "RESET"
  | .flush => "FLUSH"
  | .envenc _ _ _ => "ENVENC"
  | .iddec _ => "IDDEC"
  | .idenc _ _ _ _ _ => "IDENC"
  | .decode _ _ => "DECODE"
  | .alarmdec _ => "ALARMDEC"
  | .mkframe _ => "MKFRAME"
  | .scan _ => "SCAN"

/-! ## The table's words -/

/-- The envelope of an instruction given as the opcode table's bits: bits 31..0 are the id field, bits
95..32 eight payload bytes in order, the bits above `nbits` zero; the type byte, which the table gives
no bits, is zero. DESIGN CHOICE, log entry 12, safe. -/
def tableEnvelope (cfg : Config) (nbits w : Nat) : List Byte :=
  envelopeOf cfg 0 (BitVec.ofNat 32 (w % 2 ^ nbits))
    ((List.range 8).map fun k => BitVec.ofNat 8 ((w % 2 ^ nbits) >>> (32 + 8 * k)))

/-- The instruction the decoder reads from a word of the opcode table, under R5's default parameters. A
width that cannot hold the command code, or exceeds the longest instruction, has no word. -/
def decodeTableWord (nbits w : Nat) : Option Instr :=
  if nbits < 28 ∨ 96 < nbits then none
  else
    match decode Params.default.config (tableEnvelope Params.default.config nbits w) with
    | .instr i [] => some i
    | .instr _ (_ :: _) => none
    | .incomplete => none
    | .rejected _ => none

end Sys2Proof
end

