-- ==== Sys2Proof/Machine/State.lean ====
section
/-! DEFINITION. The state of the block, its outputs, its reasons to stop, and the state after reset. State is plain data. The spec's own state is `buf` (R10, R12); the parameters (R5) and the model's own fields stand beside it, see INVENTORY.md. -/

namespace Sys2Proof.Machine

/-! ## Decode results (R18) -/

/-- A 16-bit raw value whose signedness a parameter selects (R54: chargeI and dischargeI of 0x80). -/
inductive Raw16 where
  | unsigned (v : U16)
  | signed (v : S16)
deriving DecidableEq, Repr

/-- Command 0x80 (R18, R120): exponent 1; V, A, V, A. -/
structure Limits where
  chargeV : U16
  chargeI : Raw16
  dischargeV : U16
  dischargeI : Raw16
deriving DecidableEq, Repr

/-- Command 0x81 (R18, R121): exponents 1, 1, 0; %, %, min. -/
structure SocSoh where
  soc : U16
  soh : U16
  backupMinutes : U16
deriving DecidableEq, Repr

/-- Command 0x82 (R18, R122, R123): exponents 1, 1, 5; V, A, kW. -/
structure PackVI where
  voltage : U16
  current : S16
  power : U32
deriving DecidableEq, Repr

/-- Command 0x83 (R18, R124): voltages and delta at exponent 3, V. -/
structure CellV where
  maxV : U16
  maxPack : Byte
  maxCell : Byte
  minV : U16
  minPack : Byte
  minCell : Byte
  delta : S17
deriving DecidableEq, Repr

/-- Command 0x84 (R18, R125): temperatures and delta at exponent 1, °C. -/
structure CellT where
  maxT : S16
  maxPack : Byte
  maxSensor : Byte
  minT : S16
  minPack : Byte
  minSensor : Byte
  delta : S17
deriving DecidableEq, Repr

/-- Command 0x85 (R18, R126). -/
structure OpStatus where
  systemStatus : Byte
  workStatus : Byte
  opStatus : Byte
  flags : Byte
  systemStatus_inRange : Bool
  workStatus_inRange : Bool
  opStatus_inRange : Bool
  chargeProhibited : Bool
  dischargeProhibited : Bool
  hardDischargeProhibited : Bool
deriving DecidableEq, Repr

/-- Command 0x86 (R18, R127): exponent 0, no unit. -/
structure Cycles where
  chargeTimes : U16
  dischargeTimes : U16
deriving DecidableEq, Repr

/-- Command 0x87 (R18, R128): exponent 1, kWh. -/
structure Energy where
  chargeEnergy : U32
  dischargeEnergy : U32
deriving DecidableEq, Repr

/-- Command 0xC0 (R18, R150): the mask, its set positions in ascending order, how many, and the highest severity (0..3). -/
structure AlarmSet where
  mask : U64
  active : List Nat
  count : Nat
  maxSeverity : Nat
deriving DecidableEq, Repr

/-- A decode result is exactly one of these variants; a failure carries no telemetry field (R18, R112). -/
inductive Result where
  | limits (r : Limits)
  | socSoh (r : SocSoh)
  | packVI (r : PackVI)
  | cellV (r : CellV)
  | cellT (r : CellT)
  | opStatus (r : OpStatus)
  | cycles (r : Cycles)
  | energy (r : Energy)
  | text (bytes : List Byte)
  | alarm (r : AlarmSet)
  | opaquePayload (payload : List Byte)
  | raw (code : Byte) (payload : List Byte)
  | insufficientData (code : Byte) (required actual : Nat)
deriving DecidableEq, Repr

/-! ## Outputs -/

/-- An item of a step's output (R16): a framer event, or a frame with its identifier fields and its decode result. -/
inductive Item where
  | ev (e : Event)
  | fr (frame : Frame) (idf : Ident) (result : Result)
deriving DecidableEq, Repr

/-- What an operation returns: a step (or a command frame) an ordered item list (R16), a pure function its value (R17). -/
inductive Output where
  /-- PUSH, FLUSH, RESET and the command rows -/
  | items (l : List Item)
  /-- IDDEC -/
  | ident (f : Ident)
  /-- IDENC -/
  | word (id : CanId)
  /-- DECODE and ALARMDEC -/
  | result (r : Result)
  /-- ENVENC -/
  | envelope (bs : List Byte)
  /-- MKFRAME -/
  | frame (f : Frame)
  /-- SCAN: the item list and the rest -/
  | scanned (l : List Item) (rest : List Byte)
deriving DecidableEq, Repr

/-! ## State -/

/-- The state of one block instance. -/
structure State where
  /-- the candidate buffer, the spec's one piece of state (R10, R11) -/
  buf : List Byte
  /-- the run has begun with RESET (R190, V10); before that `buf` is unspecified. Log entry 7 -/
  begun : Bool
  /-- the parameters of R5, which no operation writes (R12). Log entry 1 -/
  par : Params
  /-- the host's operations not yet performed, oldest first; the model's own field. Log entry 5 -/
  pending : List Instr
  /-- what the operation just performed returned; the model's own field (R16, R196). Log entry 6 -/
  out : Output
deriving DecidableEq, Repr

/-- The block has no faults: "No condition in this layer is fatal" (R170), "no behaviour of the block is
`any value`, `fault` or `stuck`" (93_implementation_defined.md). Nothing raises one. Log entry 15, safe. -/
inductive Fault where
deriving DecidableEq, Repr

/-- Why the block gives an operation no meaning. -/
inductive Refusal where
  /-- raised by an arm of `exec` for a row that has no meaning yet; no arm is one. Safe -/
  | notModelled (mnemonic : String)
  /-- raised by PUSH and FLUSH in a run that has not begun with RESET: "a model gives a run that does not
  start with `RESET` no meaning (it refuses it)" (R190). Safe. Log entry 7 -/
  | runNotBegun
  /-- raised by an operation whose operands lie outside the domain the spec gives it (R87, R101, V11). Safe. Log entry 8 -/
  | outsideDomain
deriving DecidableEq, Repr

/-- The parameters as the block's functions take them. -/
abbrev State.cfg (s : State) : Config := s.par.config

/-- The state right after RESET (R22, R190): `buf` empty, the output empty, the parameters at their configured
values; nothing pending. Log entries 2, 3, 5, 6 and 13. -/
def State.reset : State where
  buf := []
  begun := true
  par := Params.default
  pending := []
  out := .items []

end Sys2Proof.Machine
end

