-- ==== Sys2Proof/Machine/Ops.lean ====
section
/-! DEFINITION. The named operations the meanings share: returning a value, keeping to a function's domain, refusing a run that has not begun, clearing the buffer, the length test of a decode, delivering one decoded frame, and dropping one byte on a condition (what stands in for taking an exception, R170, R179). -/

namespace Sys2Proof.Machine

/-- The outcome of an operation of this block. -/
abbrev Outcome := Host.Outcome State Fault Refusal

/-- Return a value: it replaces what the operation before returned (R196: "the next step does not repeat it"). -/
def State.returns (s : State) (o : Output) : State := { s with out := o }

/-- Replace the candidate buffer (R8: `buf <- v`). -/
def State.setBuf (s : State) (bs : List Byte) : State := { s with buf := bs }

/-- The run has begun with RESET (R190). -/
def State.begin (s : State) : State := { s with begun := true }

/-- Complete with a value when the operands lie in the function's domain, refuse otherwise (V11: "`refuse`: outside the functions' domains"). -/
def inDomain (ok : Bool) (s : State) (o : Output) : Outcome :=
  if ok then .next (s.returns o) else .refused .outsideDomain

/-- Complete when the run has begun with RESET, refuse otherwise (R190). -/
def afterReset (s t : State) : Outcome :=
  if s.begun then .next t else .refused .runNotBegun

/-- REQ, the required payload length of a command code (R59). -/
def reqLen (c : Byte) : Nat :=
  if c = 0x80 then 8
  else if c = 0x81 then 6
  else if c = 0x82 then 4
  else if c = 0x83 then 8
  else if c = 0x84 then 8
  else if c = 0x85 then 4
  else if c = 0x86 then 4
  else if c = 0x87 then 8
  else if c = 0xC0 then 8
  else 0

/-- The length test of a decode (R36, R111, R112): too few bytes give `InsufficientData` and no field is read. -/
def requireLen (c : Byte) (pay : List Byte) (r : Result) : Result :=
  if pay.length < reqLen c then .insufficientData c (reqLen c) pay.length else r

/-- A frame as an item of a step's output: the frame, its identifier fields and its decode result (R16). -/
def frameItem (cfg : Config) (f : Frame) (r : Result) : Item :=
  .fr f (iddec cfg.contUsed f.id) r

/-- Execute one command frame: its item is the output (R16, R2). A payload has at most 8 bytes (R15). Log entry 10. -/
def deliver (code : Byte) (a : FrameArgs) (r : Result) (s : State) : Outcome :=
  inDomain (a.payload.length ≤ MAX_LEN) s (.items [frameItem s.cfg (a.frame code) r])

/-- Take a framer condition (R179): the event goes in front of what the rest of the buffer gives; the one byte it
discards is dropped by the caller's scan, and nothing else changes. -/
def conditionTaken (e : Event) (rest : List Item × List Byte) : List Item × List Byte :=
  (.ev e :: rest.1, rest.2)

/-- Emit a frame's item in front of what the rest of the buffer gives (R80). -/
def itemEmitted (i : Item) (rest : List Item × List Byte) : List Item × List Byte :=
  (i :: rest.1, rest.2)

/-- No operation is pending: "nothing happens" (R21), and the outputs of the operation before are not held (R196).
DEDUCED, log entry 5, safe. -/
def idle (s : State) : Outcome := .next (s.returns (.items []))

end Sys2Proof.Machine
end

