-- ==== Sys2Proof/Machine/Operands.lean ====
section
/-! DEFINITION. Payload reads (R8, R33, R36), sign reconstruction (R114), the payload layouts (R60 to R72), and the scaled quantities (R9, R115). -/

namespace Sys2Proof.Machine

/-! ## Payload reads -/

/-- `MemRead(off, n)` (R8, R33): the sum over k below n of `pay[off + k] << (8*k)`. -/
def memRead (pay : List Byte) (off : Nat) : Nat → Nat
  | 0 => 0
  | n + 1 => memRead pay off n + (pay.getD (off + n) 0).toNat <<< (8 * n)

/-- `u8(off)` (R8). -/
def u8 (pay : List Byte) (off : Nat) : Nat := memRead pay off 1

/-- `u16le(off)` (R8). -/
def u16le (pay : List Byte) (off : Nat) : Nat := memRead pay off 2

/-- `u32le(off)` (R8). -/
def u32le (pay : List Byte) (off : Nat) : Nat := memRead pay off 4

/-- `u64le(off)` (R8). -/
def u64le (pay : List Byte) (off : Nat) : Nat := memRead pay off 8

/-- Sign reconstruction (R8, R114 b): "if the raw unsigned value exceeds 32767, subtract 65536". -/
def s16 (v : Nat) : Int := if v > 32767 then (v : Int) - 65536 else v

/-- Store an integer in 16 bits, two's complement (R18: s16). -/
def storeS16 (v : Int) : S16 := BitVec.ofInt 16 v

/-- Store an integer in 17 bits, two's complement (R18, R114 c: s17). -/
def storeS17 (v : Int) : S17 := BitVec.ofInt 17 v

/-- chargeI and dischargeI of 0x80: signed when P_LIMIT_I_SIGNED (R54, R60, R120). -/
def limitCurrent (signed : Bool) (raw : Nat) : Raw16 :=
  if signed then .signed (storeS16 (s16 raw)) else .unsigned (BitVec.ofNat 16 raw)

/-- The raw integer of such a field. -/
def Raw16.value : Raw16 → Int
  | .unsigned v => v.toNat
  | .signed v => v.toInt

/-! ## Field kinds and layouts -/

/-- The kinds of payload field (R54). -/
inductive FieldKind where
  | U8
  | U16
  | S16
  | U32
  | U64
  /-- U16, or S16 when P_LIMIT_I_SIGNED (R60) -/
  | I16
deriving DecidableEq, Repr

/-- The width of a field in bytes (R54). -/
def FieldKind.bytes : FieldKind → Nat
  | .U8 => 1
  | .U16 => 2
  | .S16 => 2
  | .U32 => 4
  | .U64 => 8
  | .I16 => 2

/-- The named fields of the decode results that hold one number (R18). -/
inductive Field where
  | chargeV | chargeI | dischargeV | dischargeI
  | soc | soh | backupMinutes
  | voltage | current | power
  | maxV | maxVPack | maxCell | minV | minVPack | minCell | deltaV
  | maxT | maxTPack | maxSensor | minT | minTPack | minSensor | deltaT
  | systemStatus | workStatus | opStatus | flags
  | chargeTimes | dischargeTimes
  | chargeEnergy | dischargeEnergy
  | mask | count | maxSeverity
deriving DecidableEq, Repr

/-- A field of a payload layout (R60 to R72). -/
structure FieldLayout where
  offset : Nat
  field : Field
  kind : FieldKind
deriving DecidableEq, Repr

/-- The layout a command code selects: the fields at fixed offsets (R60 to R71). The codes 0x8F, 0xD0 and the
unknown ones have none: their payload is copied as bytes. -/
def layoutOf (c : Byte) : List FieldLayout :=
  if c = 0x80 then [⟨0, .chargeV, .U16⟩, ⟨2, .chargeI, .I16⟩, ⟨4, .dischargeV, .U16⟩, ⟨6, .dischargeI, .I16⟩]
  else if c = 0x81 then [⟨0, .soc, .U16⟩, ⟨2, .soh, .U16⟩, ⟨4, .backupMinutes, .U16⟩]
  else if c = 0x82 then [⟨0, .voltage, .U16⟩, ⟨2, .current, .S16⟩]
  else if c = 0x83 then [⟨0, .maxV, .U16⟩, ⟨2, .maxVPack, .U8⟩, ⟨3, .maxCell, .U8⟩,
    ⟨4, .minV, .U16⟩, ⟨6, .minVPack, .U8⟩, ⟨7, .minCell, .U8⟩]
  else if c = 0x84 then [⟨0, .maxT, .S16⟩, ⟨2, .maxTPack, .U8⟩, ⟨3, .maxSensor, .U8⟩,
    ⟨4, .minT, .S16⟩, ⟨6, .minTPack, .U8⟩, ⟨7, .minSensor, .U8⟩]
  else if c = 0x85 then [⟨0, .systemStatus, .U8⟩, ⟨1, .workStatus, .U8⟩, ⟨2, .opStatus, .U8⟩, ⟨3, .flags, .U8⟩]
  else if c = 0x86 then [⟨0, .chargeTimes, .U16⟩, ⟨2, .dischargeTimes, .U16⟩]
  else if c = 0x87 then [⟨0, .chargeEnergy, .U32⟩, ⟨4, .dischargeEnergy, .U32⟩]
  else if c = 0xC0 then [⟨0, .mask, .U64⟩]
  else []

/-- The raw integer a layout's field reads from a payload (R54): assembled, then sign-reconstructed where the kind says so. -/
def FieldLayout.read (signedI : Bool) (pay : List Byte) (l : FieldLayout) : Int :=
  match l.kind with
  | .U8 => u8 pay l.offset
  | .U16 => u16le pay l.offset
  | .S16 => s16 (u16le pay l.offset)
  | .U32 => u32le pay l.offset
  | .U64 => u64le pay l.offset
  | .I16 => if signedI then s16 (u16le pay l.offset) else u16le pay l.offset

/-- How many of a layout's fields a payload byte belongs to (R73). -/
def fieldsAt (c : Byte) (off : Nat) : Nat :=
  (layoutOf c).countP fun l => l.offset ≤ off && off < l.offset + l.kind.bytes

/-! ## Scaled quantities -/

/-- The units of R18. -/
inductive MeasureUnit where
  | volt | ampere | percent | minute | kilowatt | celsius | kilowattHour
  /-- an index, a status byte, a bit mask, or a number DOC0 gives no unit -/
  | plain
deriving DecidableEq, Repr

/-- The constant decimal exponent k of a field: the physical value is `raw / 10^k` (R9, R18, R115). -/
def Field.exponent : Field → Nat
  | .chargeV | .chargeI | .dischargeV | .dischargeI => 1
  | .soc | .soh => 1
  | .backupMinutes => 0
  | .voltage | .current => 1
  | .power => 5
  | .maxV | .minV | .deltaV => 3
  | .maxT | .minT | .deltaT => 1
  | .chargeEnergy | .dischargeEnergy => 1
  | .maxVPack | .maxCell | .minVPack | .minCell => 0
  | .maxTPack | .maxSensor | .minTPack | .minSensor => 0
  | .systemStatus | .workStatus | .opStatus | .flags => 0
  | .chargeTimes | .dischargeTimes => 0
  | .mask | .count | .maxSeverity => 0

/-- The unit of a field (R18). -/
def Field.unit : Field → MeasureUnit
  | .chargeV | .dischargeV | .voltage | .maxV | .minV | .deltaV => .volt
  | .chargeI | .dischargeI | .current => .ampere
  | .soc | .soh => .percent
  | .backupMinutes => .minute
  | .power => .kilowatt
  | .maxT | .minT | .deltaT => .celsius
  | .chargeEnergy | .dischargeEnergy => .kilowattHour
  | .maxVPack | .maxCell | .minVPack | .minCell => .plain
  | .maxTPack | .maxSensor | .minTPack | .minSensor => .plain
  | .systemStatus | .workStatus | .opStatus | .flags => .plain
  | .chargeTimes | .dischargeTimes => .plain
  | .mask | .count | .maxSeverity => .plain

/-- The exact physical value `raw / 10^k` (R9, R115): a rational, never rounded. -/
def Field.physical (f : Field) (raw : Int) : Rat := (raw : Rat) / ((10 ^ f.exponent : Nat) : Rat)

/-- The numeric fields of a result with their raw integers (R18). The byte-list variants and the failure have none (R112). -/
def Result.raws : Result → List (Field × Int)
  | .limits r => [(.chargeV, r.chargeV.toNat), (.chargeI, r.chargeI.value),
      (.dischargeV, r.dischargeV.toNat), (.dischargeI, r.dischargeI.value)]
  | .socSoh r => [(.soc, r.soc.toNat), (.soh, r.soh.toNat), (.backupMinutes, r.backupMinutes.toNat)]
  | .packVI r => [(.voltage, r.voltage.toNat), (.current, r.current.toInt), (.power, r.power.toNat)]
  | .cellV r => [(.maxV, r.maxV.toNat), (.maxVPack, r.maxPack.toNat), (.maxCell, r.maxCell.toNat),
      (.minV, r.minV.toNat), (.minVPack, r.minPack.toNat), (.minCell, r.minCell.toNat),
      (.deltaV, r.delta.toInt)]
  | .cellT r => [(.maxT, r.maxT.toInt), (.maxTPack, r.maxPack.toNat), (.maxSensor, r.maxSensor.toNat),
      (.minT, r.minT.toInt), (.minTPack, r.minPack.toNat), (.minSensor, r.minSensor.toNat),
      (.deltaT, r.delta.toInt)]
  | .opStatus r => [(.systemStatus, r.systemStatus.toNat), (.workStatus, r.workStatus.toNat),
      (.opStatus, r.opStatus.toNat), (.flags, r.flags.toNat)]
  | .cycles r => [(.chargeTimes, r.chargeTimes.toNat), (.dischargeTimes, r.dischargeTimes.toNat)]
  | .energy r => [(.chargeEnergy, r.chargeEnergy.toNat), (.dischargeEnergy, r.dischargeEnergy.toNat)]
  | .text _ => []
  | .alarm r => [(.mask, r.mask.toNat), (.count, r.count), (.maxSeverity, r.maxSeverity)]
  | .opaquePayload _ => []
  | .raw _ _ => []
  | .insufficientData _ _ _ => []

/-- The raw integer of a field of a result, where the result has it. -/
def Result.rawOf (r : Result) (f : Field) : Option Int :=
  (r.raws.find? fun p => p.1 == f).map (·.2)

end Sys2Proof.Machine
end

