-- ==== Sys2Proof/Machine/Flags.lean ====
section
/-! DEFINITION. Indications computed from values; the block has no stored flags (R14): the range and prohibition indications of command 0x85 (R65, R72, R126), the conditions and their numeric codes (R170 to R172), and who sees what (R181). -/

namespace Sys2Proof.Machine

/-- A status byte lies in its enumeration `0..max` (R126). -/
def inRange (v : Byte) (max : Nat) : Bool := v.toNat ≤ max

/-- A prohibition flag: the configured bit of the flags byte has the configured value (R72, R126: `fl[b] = p`). -/
def prohibited (p : FlagPos) (flags : Byte) : Bool := flags.getLsbD p.bit == p.prohibitedWhen

/-- The five conditions (R170). -/
inductive Condition where
  | resync
  | checksumMismatch
  | lenError
  | insufficientData
  | unknownCommand
deriving DecidableEq, Repr

/-- The numeric code of a framer event (R171). -/
def eventCode : Event → Nat
  | .resync _ => 1
  | .checksumMismatch => 2
  | .lenError _ => 3

/-- The condition a framer event reports (R170, R171). -/
def eventCondition : Event → Condition
  | .resync _ => .resync
  | .checksumMismatch => .checksumMismatch
  | .lenError _ => .lenError

/-- The tag of a result, the 4-bit `res_kind` (R172, R21). -/
def Result.tag : Result → BitVec 4
  | .limits _ => 0
  | .socSoh _ => 1
  | .packVI _ => 2
  | .cellV _ => 3
  | .cellT _ => 4
  | .opStatus _ => 5
  | .cycles _ => 6
  | .energy _ => 7
  | .text _ => 8
  | .alarm _ => 9
  | .opaquePayload _ => 10
  | .raw _ _ => 11
  | .insufficientData _ _ _ => 12

/-- The condition a result carries, at most one (R172, R176 to R178). -/
def Result.condition : Result → Option Condition
  | .raw _ _ => some .unknownCommand
  | .insufficientData _ _ _ => some .insufficientData
  | .limits _ => none
  | .socSoh _ => none
  | .packVI _ => none
  | .cellV _ => none
  | .cellT _ => none
  | .opStatus _ => none
  | .cycles _ => none
  | .energy _ => none
  | .text _ => none
  | .alarm _ => none
  | .opaquePayload _ => none

/-- A result is a failure only when it is `InsufficientData` (R172, R177); `Raw` is "not an error" (R176). -/
def Result.isFailure (r : Result) : Bool := r.condition == some .insufficientData

/-! ## The fields of a result that are no numbers (R18)

The numeric fields are `Result.raws`. -/

/-- The six indications of command 0x85 (R18, R126). -/
inductive ResultFlag where
  | systemStatus_inRange
  | workStatus_inRange
  | opStatus_inRange
  | chargeProhibited
  | dischargeProhibited
  | hardDischargeProhibited
deriving DecidableEq, Repr

/-- An indication of a result, where the result has it (R18). -/
def Result.flagOf (r : Result) (f : ResultFlag) : Option Bool :=
  match r with
  | .opStatus x =>
    match f with
    | .systemStatus_inRange => some x.systemStatus_inRange
    | .workStatus_inRange => some x.workStatus_inRange
    | .opStatus_inRange => some x.opStatus_inRange
    | .chargeProhibited => some x.chargeProhibited
    | .dischargeProhibited => some x.dischargeProhibited
    | .hardDischargeProhibited => some x.hardDischargeProhibited
  | .limits _ | .socSoh _ | .packVI _ | .cellV _ | .cellT _ | .cycles _ | .energy _ => none
  | .text _ | .alarm _ | .opaquePayload _ | .raw _ _ | .insufficientData _ _ _ => none

/-- The byte list of a result, where it has one: `text`, or the copied `payload` (R18). -/
def Result.bytesOf : Result → Option (List Byte)
  | .text bs => some bs
  | .opaquePayload bs => some bs
  | .raw _ bs => some bs
  | .limits _ | .socSoh _ | .packVI _ | .cellV _ | .cellT _ | .opStatus _ | .cycles _ | .energy _ => none
  | .alarm _ | .insufficientData _ _ _ => none

/-- The command code a result carries: `Raw` and `InsufficientData` (R18). -/
def Result.codeOf : Result → Option Byte
  | .raw c _ => some c
  | .insufficientData c _ _ => some c
  | .limits _ | .socSoh _ | .packVI _ | .cellV _ | .cellT _ | .opStatus _ | .cycles _ | .energy _ => none
  | .text _ | .alarm _ | .opaquePayload _ => none

/-- The required and the actual length that `InsufficientData` carries (R18, R112). -/
def Result.lengthsOf : Result → Option (Nat × Nat)
  | .insufficientData _ q n => some (q, n)
  | .limits _ | .socSoh _ | .packVI _ | .cellV _ | .cellT _ | .opStatus _ | .cycles _ | .energy _ => none
  | .text _ | .alarm _ | .opaquePayload _ | .raw _ _ => none

/-! ## Who sees what -/

/-- The framer events of an item list: what a log sees (R181). -/
def eventsOf (l : List Item) : List Event :=
  l.filterMap fun
    | .ev e => some e
    | .fr _ _ _ => none

/-- The frames of an item list, each with its identifier fields and result. -/
def framesOf (l : List Item) : List (Frame × Ident × Result) :=
  l.filterMap fun
    | .ev _ => none
    | .fr f i r => some (f, i, r)

/-- The decode results of an item list, failures among them: what the telemetry consumer sees (R181). -/
def telemetryOf (l : List Item) : List Result := (framesOf l).map (·.2.2)

end Sys2Proof.Machine
end

