-- ==== Sys2Proof/Machine/Alarm.lean ====
section
/-! DEFINITION. The Alarm Bitmap Decoder: the severity table, ALARMDEC and command 0xC0 (R150 to R153). -/

namespace Sys2Proof.Machine

/-- The severity table SEV, written out for bits 0..63 as R151 writes it, sixteen positions a line. -/
def sevTable : List Nat :=
  [3, 3, 2, 2, 2, 2, 2, 2, 2, 2, 1, 1, 1, 1, 3, 1] ++
  [1, 1, 3, 3, 3, 3, 3, 3, 3, 3, 3, 3, 3, 3, 3, 3] ++
  [3, 1, 1, 1, 1, 1, 1, 1, 1, 1, 1, 1, 1, 1, 1, 1] ++
  [1, 1, 1, 1, 1, 1, 1, 1, 1, 1, 1, 1, 1, 1, 1, 1]

/-- `SEV[b]` (R8, R32): a read of the table at bit position b, 0..63. -/
def sev (b : Nat) : Nat := sevTable.getD b 0

/-- The set positions of a mask, ascending (R150). -/
def activeBits (mask : U64) : List Nat := (List.range 64).filter fun k => mask.getLsbD k

/-- The highest severity among positions, 0 when there is none (R150). -/
def maxSev (active : List Nat) : Nat := active.foldr (fun k m => max (sev k) m) 0

/-- ALARMDEC on eight payload bytes (R150). -/
def alarmDec (pay : List Byte) : AlarmSet :=
  let mask : U64 := BitVec.ofNat 64 (u64le pay 0)
  { mask := mask
    active := activeBits mask
    count := (activeBits mask).length
    maxSeverity := maxSev (activeBits mask) }

/-- Command 0xC0 (R150, R111): fewer than eight bytes are insufficient (R59). -/
def execAlarm (f : FrameArgs) (s : State) : Outcome :=
  deliver 0xC0 f (requireLen 0xC0 f.payload (.alarm (alarmDec f.payload))) s

/-- ALARMDEC called by the host (R150, R17): `n = |pay| = 8`. -/
def execAlarmdec (pay : List Byte) (s : State) : Outcome :=
  inDomain (pay.length == 8) s (.result (.alarm (alarmDec pay)))

end Sys2Proof.Machine
end

