-- ==== Sys2Proof/Machine/Commands.lean ====
section
/-! DEFINITION. The BMS Command Decoder: the body of each command (R120 to R131), DECODE's dispatch (R111), and the meanings of the command rows but ALARM. -/

namespace Sys2Proof.Machine

/-! ## The bodies, on a payload that has the required length -/

/-- DEC_LIMITS (R120). -/
def decLimits (signedI : Bool) (pay : List Byte) : Limits where
  chargeV := BitVec.ofNat 16 (u16le pay 0)
  chargeI := limitCurrent signedI (u16le pay 2)
  dischargeV := BitVec.ofNat 16 (u16le pay 4)
  dischargeI := limitCurrent signedI (u16le pay 6)

/-- DEC_SOCSOH (R121). -/
def decSocSoh (pay : List Byte) : SocSoh where
  soc := BitVec.ofNat 16 (u16le pay 0)
  soh := BitVec.ofNat 16 (u16le pay 2)
  backupMinutes := BitVec.ofNat 16 (u16le pay 4)

/-- DEC_PACKVI (R122, R123): `power = voltage × |current|`, computed on unbounded integers. -/
def decPackVI (pay : List Byte) : PackVI where
  voltage := BitVec.ofNat 16 (u16le pay 0)
  current := storeS16 (s16 (u16le pay 2))
  power := BitVec.ofNat 32 (u16le pay 0 * (s16 (u16le pay 2)).natAbs)

/-- DEC_CELLV (R124): `delta = maxV − minV`, signed, not clamped. -/
def decCellV (pay : List Byte) : CellV where
  maxV := BitVec.ofNat 16 (u16le pay 0)
  maxPack := BitVec.ofNat 8 (u8 pay 2)
  maxCell := BitVec.ofNat 8 (u8 pay 3)
  minV := BitVec.ofNat 16 (u16le pay 4)
  minPack := BitVec.ofNat 8 (u8 pay 6)
  minCell := BitVec.ofNat 8 (u8 pay 7)
  delta := storeS17 ((u16le pay 0 : Int) - (u16le pay 4 : Int))

/-- DEC_CELLT (R125): `delta = maxT − minT` on the reconstructed values. -/
def decCellT (pay : List Byte) : CellT where
  maxT := storeS16 (s16 (u16le pay 0))
  maxPack := BitVec.ofNat 8 (u8 pay 2)
  maxSensor := BitVec.ofNat 8 (u8 pay 3)
  minT := storeS16 (s16 (u16le pay 4))
  minPack := BitVec.ofNat 8 (u8 pay 6)
  minSensor := BitVec.ofNat 8 (u8 pay 7)
  delta := storeS17 (s16 (u16le pay 0) - s16 (u16le pay 4))

/-- DEC_OPSTAT (R126): status bytes pass through whole; the flags at their configured places (R72). -/
def decOpStatus (chg dis hard : FlagPos) (pay : List Byte) : OpStatus where
  systemStatus := BitVec.ofNat 8 (u8 pay 0)
  workStatus := BitVec.ofNat 8 (u8 pay 1)
  opStatus := BitVec.ofNat 8 (u8 pay 2)
  flags := BitVec.ofNat 8 (u8 pay 3)
  systemStatus_inRange := inRange (BitVec.ofNat 8 (u8 pay 0)) 7
  workStatus_inRange := inRange (BitVec.ofNat 8 (u8 pay 1)) 2
  opStatus_inRange := inRange (BitVec.ofNat 8 (u8 pay 2)) 3
  chargeProhibited := prohibited chg (BitVec.ofNat 8 (u8 pay 3))
  dischargeProhibited := prohibited dis (BitVec.ofNat 8 (u8 pay 3))
  hardDischargeProhibited := prohibited hard (BitVec.ofNat 8 (u8 pay 3))

/-- DEC_CYCLES (R127). -/
def decCycles (pay : List Byte) : Cycles where
  chargeTimes := BitVec.ofNat 16 (u16le pay 0)
  dischargeTimes := BitVec.ofNat 16 (u16le pay 2)

/-- DEC_ENERGY (R128): unsigned 32-bit fields. -/
def decEnergy (pay : List Byte) : Energy where
  chargeEnergy := BitVec.ofNat 32 (u32le pay 0)
  dischargeEnergy := BitVec.ofNat 32 (u32le pay 4)

/-- DEC_TEXT (R129): zero bytes are removed wherever they stand, the others kept in order. -/
def decText (pay : List Byte) : List Byte := pay.filter (· != 0)

/-! ## DECODE -/

/-- The body a command code selects (R111), on a payload that has the required length. -/
def decodeBody (cfg : Config) (c : Byte) (pay : List Byte) : Result :=
  if c = 0x80 then .limits (decLimits cfg.limitISigned pay)
  else if c = 0x81 then .socSoh (decSocSoh pay)
  else if c = 0x82 then .packVI (decPackVI pay)
  else if c = 0x83 then .cellV (decCellV pay)
  else if c = 0x84 then .cellT (decCellT pay)
  else if c = 0x85 then .opStatus (decOpStatus cfg.flagChg cfg.flagDis cfg.flagHardDis pay)
  else if c = 0x86 then .cycles (decCycles pay)
  else if c = 0x87 then .energy (decEnergy pay)
  else if c = 0x8F then .text (decText pay)
  else if c = 0xC0 then .alarm (alarmDec pay)
  else if c = 0xD0 then .opaquePayload pay
  else .raw c pay

/-- DECODE (R110, R111): the code, then the length, then the body. REQ is 0 for TEXT, OPAQUE and every unknown
code, so none of them gives `InsufficientData` (R59, R178). -/
def decodePayload (cfg : Config) (c : Byte) (pay : List Byte) : Result :=
  requireLen c pay (decodeBody cfg c pay)

/-! ## The meanings -/

/-- LIMITS, command 0x80 (R120). -/
def execLimits (f : FrameArgs) (s : State) : Outcome :=
  deliver 0x80 f (requireLen 0x80 f.payload (.limits (decLimits s.cfg.limitISigned f.payload))) s

/-- SOCSOH, command 0x81 (R121). -/
def execSocsoh (f : FrameArgs) (s : State) : Outcome :=
  deliver 0x81 f (requireLen 0x81 f.payload (.socSoh (decSocSoh f.payload))) s

/-- PACKVI, command 0x82 (R122, R123). -/
def execPackvi (f : FrameArgs) (s : State) : Outcome :=
  deliver 0x82 f (requireLen 0x82 f.payload (.packVI (decPackVI f.payload))) s

/-- CELLV, command 0x83 (R124). -/
def execCellv (f : FrameArgs) (s : State) : Outcome :=
  deliver 0x83 f (requireLen 0x83 f.payload (.cellV (decCellV f.payload))) s

/-- CELLT, command 0x84 (R125). -/
def execCellt (f : FrameArgs) (s : State) : Outcome :=
  deliver 0x84 f (requireLen 0x84 f.payload (.cellT (decCellT f.payload))) s

/-- OPSTAT, command 0x85 (R126). -/
def execOpstat (f : FrameArgs) (s : State) : Outcome :=
  deliver 0x85 f (requireLen 0x85 f.payload
    (.opStatus (decOpStatus s.cfg.flagChg s.cfg.flagDis s.cfg.flagHardDis f.payload))) s

/-- CYCLES, command 0x86 (R127). -/
def execCycles (f : FrameArgs) (s : State) : Outcome :=
  deliver 0x86 f (requireLen 0x86 f.payload (.cycles (decCycles f.payload))) s

/-- ENERGY, command 0x87 (R128). -/
def execEnergy (f : FrameArgs) (s : State) : Outcome :=
  deliver 0x87 f (requireLen 0x87 f.payload (.energy (decEnergy f.payload))) s

/-- TEXT, command 0x8F (R129): no required length. -/
def execText (f : FrameArgs) (s : State) : Outcome :=
  deliver 0x8F f (.text (decText f.payload)) s

/-- OPAQUE, command 0xD0 (R130): the payload as it is. -/
def execOpaque (f : FrameArgs) (s : State) : Outcome :=
  deliver 0xD0 f (.opaquePayload f.payload) s

/-- RAW, every command code without a row of its own (R131), with the condition `UnknownCommand` (R176). A named
code never selects this row (R53). -/
def execRaw (code : Byte) (f : FrameArgs) (s : State) : Outcome :=
  if namedCodes.contains code then .refused .outsideDomain
  else deliver code f (.raw code f.payload) s

/-- DECODE called by the host (R110, R17). -/
def execDecode (c : Byte) (pay : List Byte) (s : State) : Outcome :=
  inDomain (pay.length ≤ MAX_LEN) s (.result (decodePayload s.cfg c pay))

end Sys2Proof.Machine
end

