-- ==== Sys2Proof/Machine/Identifier.lean ====
section
/-! DEFINITION. The Frame Identifier Codec as operations of the host: IDDEC and IDENC (R100, R101). Both are pure: no state is read but the parameters. -/

namespace Sys2Proof.Machine

/-- IDDEC (R100), on values below 2^29. -/
def execIddec (id : Nat) (s : State) : Outcome :=
  inDomain (id < 2 ^ 29) s (.ident (iddec s.cfg.contUsed (BitVec.ofNat 29 id)))

/-- IDENC (R101), on byte fields below 256: "the model refuses it rather than masking it". -/
def execIdenc (ptp : Bool) (code dst src : Nat) (cont : Bool) (s : State) : Outcome :=
  inDomain (code < 256 && dst < 256 && src < 256) s
    (.word (idenc ⟨ptp, BitVec.ofNat 8 code, BitVec.ofNat 8 dst, BitVec.ofNat 8 src, cont⟩))

end Sys2Proof.Machine
end

