-- ==== Sys2Proof/Machine/Framer.lean ====
section
/-! DEFINITION. The Adapter Framer: its phase and buffer invariant (R11, R13), the drain loop (R80) and SCAN (R84), and the meanings of PUSH, RESET, FLUSH, ENVENC, MKFRAME and SCAN. -/

namespace Sys2Proof.Machine

/-! ## Phase and invariant -/

/-- The framer's phase, a function of the buffer (R13). -/
inductive Phase where
  | scan
  | header
  | data
  | check
deriving DecidableEq, Repr

/-- R13's table: nothing buffered; fewer than 7 bytes; data incomplete; only the checksum byte awaited. -/
def phaseOf (buf : List Byte) : Phase :=
  if buf.length = 0 then .scan
  else if buf.length < HDR_LEN then .header
  else if buf.length < HDR_LEN + (buf.getD 6 0).toNat then .data
  else .check

/-- The buffer invariant between steps (R11): empty, or an incomplete candidate. -/
def bufOk (buf : List Byte) : Bool :=
  match buf with
  | [] => true
  | b :: _ => b == SYNC && (buf.length < HDR_LEN ||
      ((buf.getD 6 0).toNat ≤ MAX_LEN && buf.length < 8 + (buf.getD 6 0).toNat))

/-! ## The drain loop -/

/-- What the framer emits for a valid envelope (R80): MKFRAME, IDDEC of its identifier, DECODE of its payload. -/
def envelopeItem (cfg : Config) (e : List Byte) : Item :=
  frameItem cfg (mkFrame cfg.idOrder e)
    (decodePayload cfg (mkFrame cfg.idOrder e).code (mkFrame cfg.idOrder e).payload)

/-- The drain loop (R80) with a bound on its passes; every pass that does not stop removes at least one byte
(R91), so a bound of the number of bytes is never reached. -/
def drain (cfg : Config) : Nat → List Byte → List Item × List Byte
  | 0, bs => ([], bs)
  | n + 1, bs =>
    match headOf cfg.chk bs with
    | .wait => ([], bs)
    | .reject e => conditionTaken e (drain cfg n bs.tail)
    | .envelope len => itemEmitted (envelopeItem cfg (bs.take (8 + len))) (drain cfg n (bs.drop (8 + len)))

/-- SCAN (R84): the items of a byte list and the bytes left over. -/
def scan (cfg : Config) (xs : List Byte) : List Item × List Byte := drain cfg xs.length xs

/-! ## The meanings -/

/-- PUSH (R80): append the byte, run the drain loop to its stop, return the items. -/
def execPush (b : Byte) (s : State) : Outcome :=
  afterReset s ((s.setBuf (scan s.cfg (s.buf ++ [b])).2).returns
    (.items (scan s.cfg (s.buf ++ [b])).1))

/-- RESET (R85): `buf <- []; return []`; the run has begun (R190). -/
def execReset (s : State) : Outcome := .next (((s.setBuf []).begin).returns (.items []))

/-- FLUSH (R86): `buf <- []; return []`, no event. -/
def execFlush (s : State) : Outcome := afterReset s ((s.setBuf []).returns (.items []))

/-- ENVENC (R87): "require |payload| <= 8 and id < 2^29"; the type byte is P_TX_TYPE when the host has no other. -/
def execEnvenc (t : Option Byte) (id : Nat) (payload : List Byte) (s : State) : Outcome :=
  inDomain (id < 2 ^ 29 && payload.length ≤ MAX_LEN) s
    (.envelope (envenc s.cfg (t.getD s.cfg.txType) (BitVec.ofNat 29 id) payload))

/-- MKFRAME (R81) on an envelope of `8 + len` bytes; like the rule's own pseudocode it looks at neither the sync
byte nor the checksum byte. DEDUCED, log entry 9, unsafe. -/
def execMkframe (e : List Byte) (s : State) : Outcome :=
  inDomain (envelopeShaped e) s (.frame (mkFrame s.cfg.idOrder e))

/-- SCAN called by the host (R84, R17). -/
def execScan (xs : List Byte) (s : State) : Outcome :=
  .next (s.returns (.scanned (scan s.cfg xs).1 (scan s.cfg xs).2))

end Sys2Proof.Machine
end

