-- ==== Sys2Proof/Machine/Dispatch.lean ====
section
/-! DEFINITION. One arm per constructor of Instr, each one direct call of that instruction's meaning. -/

namespace Sys2Proof.Machine

def exec (i : Instr) (s : State) : Host.Outcome State Fault Refusal :=
  match i with
  | .limits f => Sys2Proof.Machine.execLimits f s
  | .socsoh f => Sys2Proof.Machine.execSocsoh f s
  | .packvi f => Sys2Proof.Machine.execPackvi f s
  | .cellv f => Sys2Proof.Machine.execCellv f s
  | .cellt f => Sys2Proof.Machine.execCellt f s
  | .opstat f => Sys2Proof.Machine.execOpstat f s
  | .cycles f => Sys2Proof.Machine.execCycles f s
  | .energy f => Sys2Proof.Machine.execEnergy f s
  | .text f => Sys2Proof.Machine.execText f s
  | .alarm f => Sys2Proof.Machine.execAlarm f s
  | .opaqueCode f => Sys2Proof.Machine.execOpaque f s
  | .raw code f => Sys2Proof.Machine.execRaw code f s
  | .push b => Sys2Proof.Machine.execPush b s
  | .reset => Sys2Proof.Machine.execReset s
  | .flush => Sys2Proof.Machine.execFlush s
  | .envenc t id payload => Sys2Proof.Machine.execEnvenc t id payload s
  | .iddec id => Sys2Proof.Machine.execIddec id s
  | .idenc ptp code dst src cont => Sys2Proof.Machine.execIdenc ptp code dst src cont s
  | .decode c pay => Sys2Proof.Machine.execDecode c pay s
  | .alarmdec pay => Sys2Proof.Machine.execAlarmdec pay s
  | .mkframe e => Sys2Proof.Machine.execMkframe e s
  | .scan xs => Sys2Proof.Machine.execScan xs s

end Sys2Proof.Machine
end

