-- ==== Sys2Proof/Machine/Step.lean ====
section
/-! DEFINITION. One step: the block performs the oldest operation the host has issued (R17). The command rows run inside the PUSH that completes their envelope (R80). -/

namespace Sys2Proof.Machine

/-- One step. With nothing pending, nothing happens (R21). -/
def step (s : State) : Host.Outcome State Fault Refusal :=
  match s.pending with
  | [] => idle s
  | i :: rest => exec i { s with pending := rest }

/-- The state in which the very next step completes and runs an instruction given as a word of the opcode table:
all of its envelope but the last byte is in the buffer, and the host's next operation pushes that byte. Log
entries 12 and 13. -/
def State.withFetchWord (s : State) (nbits w : Nat) : State :=
  { s with
    begun := true
    buf := (tableEnvelope s.cfg nbits w).dropLast
    pending := .push ((tableEnvelope s.cfg nbits w).getLastD 0) :: s.pending }

end Sys2Proof.Machine
end

