-- ==== Sys2Proof/Machine/Ports.lean ====
section
/-! DEFINITION. The port-level reading of R21: which step a cycle's inputs ask for, and what the outputs show in the cycle that ends it. -/

namespace Sys2Proof.Machine

/-- The inputs of a cycle (R21). -/
structure PortIn where
  rst : Bool
  flush : Bool
  inValid : Bool
  inByte : Byte
deriving DecidableEq, Repr

/-- "A cycle with `rst` is `RESET`; else with `flush` is `FLUSH`; else with `in_valid` is `PUSH(in_byte)`; else
nothing happens" (R21). -/
def PortIn.operation (p : PortIn) : Option Instr :=
  if p.rst then some .reset
  else if p.flush then some .flush
  else if p.inValid then some (.push p.inByte)
  else none

/-- One cycle (R21): the operation the inputs ask for is the one the block performs. -/
def portStep (s : State) (p : PortIn) : Outcome := step { s with pending := p.operation.toList }

/-- The outputs of a cycle (R21), but for the result's fields, which stand below. -/
structure PortOut where
  frameValid : Bool
  frameType : Byte
  frameId : CanId
  frameLen : BitVec 4
  frameData : BitVec 64
  idPtp : Bool
  idCmd : Byte
  idDst : Byte
  idSrc : Byte
  idCont : Bool
  resKind : BitVec 4
  evResyncCount : BitVec 5
  evChkCount : BitVec 5
  evLenCount : BitVec 5
deriving DecidableEq, Repr

/-- The item list an output is; a pure function's value is no output of a cycle. -/
def Output.itemList : Output → List Item
  | .items l => l
  | .ident _ => []
  | .word _ => []
  | .result _ => []
  | .envelope _ => []
  | .frame _ => []
  | .scanned _ _ => []

/-- How many of a list's events have a code (R21, R171). -/
def eventCount (l : List Item) (code : Nat) : BitVec 5 :=
  BitVec.ofNat 5 ((eventsOf l).countP fun e => eventCode e == code)

/-- The output ports in the cycle that ends a step (R21): byte i of the payload in bits 8i+7..8i, unused bytes
zero; every frame, identifier and result output zero when there is no frame. -/
def portOut (o : Output) : PortOut :=
  let l := o.itemList
  match (framesOf l).head? with
  | some (f, i, r) =>
    { frameValid := true, frameType := f.ftype, frameId := f.id, frameLen := BitVec.ofNat 4 f.len,
      frameData := BitVec.ofNat 64 (u64le f.payload 0),
      idPtp := i.pointToPoint, idCmd := i.commandCode, idDst := i.destinationAddress,
      idSrc := i.sourceAddress, idCont := i.continuation, resKind := r.tag,
      evResyncCount := eventCount l 1, evChkCount := eventCount l 2, evLenCount := eventCount l 3 }
  | none =>
    { frameValid := false, frameType := 0, frameId := 0, frameLen := 0, frameData := 0,
      idPtp := false, idCmd := 0, idDst := 0, idSrc := 0, idCont := false, resKind := 0,
      evResyncCount := eventCount l 1, evChkCount := eventCount l 2, evLenCount := eventCount l 3 }

/-! ## The result's fields

One output for each field of R18's variants. A field the result does not have is zero, and so is every field when there
is no frame (R21). The packing of the fields on the bus is not in the spec; log entry 14. -/

/-- The result the step put out, if any. -/
def portResult (o : Output) : Option Result := (framesOf o.itemList).head?.map (·.2.2)

/-- A numeric telemetry field's output (R21, R18). -/
def portField (o : Output) (f : Field) : Int := ((portResult o).bind (·.rawOf f)).getD 0

/-- An indication's output (R21, R126). -/
def portFlag (o : Output) (f : ResultFlag) : Bool := ((portResult o).bind (·.flagOf f)).getD false

/-- The output of a byte-list field: `text` of `Text`, `payload` of `Opaque` and `Raw` (R21, R18). -/
def portBytes (o : Output) : List Byte := ((portResult o).bind (·.bytesOf)).getD []

/-- The output of `code`, of `Raw` and `InsufficientData` (R21, R18). -/
def portCode (o : Output) : Byte := ((portResult o).bind (·.codeOf)).getD 0

/-- The output of `required`, 1..8 (R21, R112). -/
def portRequired (o : Output) : BitVec 4 :=
  BitVec.ofNat 4 (((portResult o).bind (·.lengthsOf)).getD (0, 0)).1

/-- The output of `actual`, 0..7 (R21, R112). -/
def portActual (o : Output) : BitVec 4 :=
  BitVec.ofNat 4 (((portResult o).bind (·.lengthsOf)).getD (0, 0)).2

end Sys2Proof.Machine
end

