-- ==== Sys2Proof/Safety.lean ====
section
/-! DEFINITION. The terms claims are stated in: the state invariant (R11, R190), what a run of steps has done (R192), and which operations are pure functions (R3, R17). -/

namespace Sys2Proof.Machine

/-- The state invariant: once the run has begun, the buffer satisfies R11. Before that the buffer is unspecified (R190). -/
def State.Inv (s : State) : Prop := s.begun = true → bufOk s.buf = true

/-- `k` steps one after another, with "the concatenation of its steps' output lists" (R192); `none` when one of
them does not answer a next state. -/
def runItems : Nat → State → Option (List Item × State)
  | 0, s => some ([], s)
  | k + 1, s =>
    match step s with
    | .next t => (runItems k t).map fun p => (t.out.itemList ++ p.1, p.2)
    | .fault _ => none
    | .refused _ => none

/-- The host has issued exactly these operations and the block has performed none of them yet. -/
def State.given (s : State) (ops : List Instr) : State := { s with pending := ops }

/-- The operations that are steps of the framer, which read or write its buffer (R17). All others are pure (R3, R12). -/
def isStep (i : Instr) : Bool :=
  match i with
  | .push _ | .reset | .flush => true
  | .limits _ | .socsoh _ | .packvi _ | .cellv _ | .cellt _ | .opstat _ | .cycles _ | .energy _ => false
  | .text _ | .alarm _ | .opaqueCode _ | .raw _ _ => false
  | .envenc _ _ _ | .iddec _ | .idenc _ _ _ _ _ | .decode _ _ | .alarmdec _ | .mkframe _ | .scan _ => false

/-- The stretch of the stream an item accounts for (R30): the discarded byte of an event, or the envelope of a
frame. -/
def Item.spells (cfg : Config) (i : Item) (seg : List Byte) : Prop :=
  match i with
  | .ev (.resync b) => b ≠ SYNC ∧ seg = [b]
  | .ev .checksumMismatch => seg = [SYNC]
  | .ev (.lenError len) => MAX_LEN < len.toNat ∧ seg = [SYNC]
  | .fr f _ _ => headOf cfg.chk seg = .envelope f.len ∧ seg.length = 8 + f.len ∧ f = mkFrame cfg.idOrder seg

end Sys2Proof.Machine
end

