-- ==== Sys2Proof/Certificates/Slice0/Obligations.lean ====
section
/-! DEFINITION. The statements for the provers, each from a numbered rule of spec/ (its docstring names it) or derived from several. All of them quantify over the parameters of R5, since these stand in State or in Config. -/

namespace Sys2Proof.Claims

open Sys2Proof.Machine

/-- Two bytes, low byte first (R33). -/
def le2 (b0 b1 : Byte) : Nat := b0.toNat + 256 * b1.toNat

/-- Four bytes, low byte first (R33). -/
def le4 (b0 b1 b2 b3 : Byte) : Nat :=
  b0.toNat + 256 * b1.toNat + 65536 * b2.toNat + 16777216 * b3.toNat

/-- "if the raw unsigned value exceeds 32767, subtract 65536" (R114 b). -/
def signed16 (n : Nat) : Int := if 32767 < n then (n : Int) - 65536 else n

/-- The identifier of a frame as a number: each field times the weight of its lowest bit (R52). -/
def idNumber (code : Byte) (a : FrameArgs) : Nat :=
  a.ptp.toNat * 2 ^ 28 + code.toNat * 2 ^ 20 + a.dst.toNat * 2 ^ 12 + a.src.toNat * 2 ^ 4 +
    a.cont.toNat * 2 ^ 3 + a.low.toNat

/-- The state after a command frame: one item, with the frame (R15), its identifier fields (R20, R100) and a
result; nothing else is changed. -/
def shown (s : State) (code : Byte) (a : FrameArgs) (r : Result) : State :=
  { s with out := .items [.fr
      ⟨a.ftype, BitVec.ofNat 29 (idNumber code a), a.payload.length, a.payload⟩
      ⟨a.ptp, code, a.dst, a.src, s.par.contUsed && a.cont⟩ r] }

/-- The state after a pure function: the value, nothing else changed (R3, R17). -/
def valued (s : State) (o : Output) : State := { s with out := o }

/-- The four id bytes of an envelope, written from the number (R87, R35). -/
def idBytesOf (o : IdOrder) (id : Nat) : List Byte :=
  match o with
  | .LE => [BitVec.ofNat 8 id, BitVec.ofNat 8 (id / 2 ^ 8), BitVec.ofNat 8 (id / 2 ^ 16), BitVec.ofNat 8 (id / 2 ^ 24)]
  | .BE => [BitVec.ofNat 8 (id / 2 ^ 24), BitVec.ofNat 8 (id / 2 ^ 16), BitVec.ofNat 8 (id / 2 ^ 8), BitVec.ofNat 8 id]

/-- R152's closed form, with R151's masks. -/
def closedSeverity (mask : U64) : Nat :=
  if mask &&& 0x00000001FFFC4003 ≠ 0 then 3
  else if mask &&& 0x00000000000003FC ≠ 0 then 2
  else if mask ≠ 0 then 1
  else 0

/-- What R150 says an alarm set is, for eight payload bytes: every mask bit (R34), the positions ascending and
without a gap or a stranger, their number, and the highest severity in closed form (R152). -/
def IsAlarmSetOf (r : AlarmSet) (pay : List Byte) : Prop :=
  (∀ k < 64, r.mask.getLsbD k = (pay.getD (k / 8) 0).getLsbD (k % 8)) ∧
  r.active.Pairwise (· < ·) ∧
  (∀ k, k ∈ r.active ↔ k < 64 ∧ r.mask.getLsbD k = true) ∧
  r.count = r.active.length ∧
  r.maxSeverity = closedSeverity r.mask

/-- The telemetry field outputs of R21 are all zero: the numbers, the indications and the byte list. -/
def TelemetryZero (o : Output) : Prop :=
  (∀ f, portField o f = 0) ∧ (∀ f, portFlag o f = false) ∧ portBytes o = []

/-- How many items of a list are one event, or of one kind of event. -/
def eventsLike (p : Event → Bool) (l : List Item) : Nat :=
  l.countP fun
    | .ev e => p e
    | .fr _ _ _ => false

/-- A payload shorter than a command row's required length gives the failure marker, in the frame's own item (R112). -/
def FailsBelow (row : FrameArgs → Instr) (code : Byte) (req : Nat) : Prop :=
  ∀ (s : State) (a : FrameArgs), a.payload.length < req →
    exec (row a) s = .next (shown s code a (.insufficientData code req a.payload.length))

/-- The constant exponents and units of fields (R9, R18). -/
def Scaled (l : List (Field × Nat × MeasureUnit)) : Prop :=
  ∀ p ∈ l, p.1.exponent = p.2.1 ∧ p.1.unit = p.2.2

/-- The defining equations of SCAN at one byte list, as R84 writes them. -/
def ScanEquations (p : Params) (xs : List Byte) : Prop :=
  scan p.config xs =
    (if xs.length = 0 then ([], xs)
     else if xs.getD 0 0 ≠ 0xAA then
       (.ev (.resync (xs.getD 0 0)) :: (scan p.config (xs.drop 1)).1, (scan p.config (xs.drop 1)).2)
     else if xs.length < 7 then ([], xs)
     else if 8 < (xs.getD 6 0).toNat then
       (.ev (.lenError (xs.getD 6 0)) :: (scan p.config (xs.drop 1)).1, (scan p.config (xs.drop 1)).2)
     else if xs.length < 8 + (xs.getD 6 0).toNat then ([], xs)
     else if xs.getD (7 + (xs.getD 6 0).toNat) 0 ≠ p.chk.apply ((xs.drop 1).take (6 + (xs.getD 6 0).toNat)) then
       (.ev .checksumMismatch :: (scan p.config (xs.drop 1)).1, (scan p.config (xs.drop 1)).2)
     else
       let f := mkFrame p.idOrder (xs.take (8 + (xs.getD 6 0).toNat))
       (.fr f (iddec p.contUsed f.id) (decodePayload p.config (iddec p.contUsed f.id).commandCode f.payload) ::
          (scan p.config (xs.drop (8 + (xs.getD 6 0).toNat))).1,
        (scan p.config (xs.drop (8 + (xs.getD 6 0).toNat))).2))

end Sys2Proof.Claims

open Sys2Proof Sys2Proof.Machine Sys2Proof.Claims

/-! ## Decoding and encoding -/

/-- R50 to R53: words written out from the spec's formats decode to the instructions they stand for (F1, F8 of
95_test_vectors.md; the first also in BE order, F14), and a byte list that starts no envelope is rejected by name. -/
def Obligations.SpecWordsDecode : Prop :=
  decode Params.default.config [0xAA, 0x01, 0x40, 0x1F, 0x20, 0x18, 0x04, 0xB9, 0x1F, 0x38, 0x00, 0xAC] =
    .instr (.packvi ⟨0x01, true, 0x01, 0xF4, false, 0, [0xB9, 0x1F, 0x38, 0x00]⟩) [] ∧
  decode { Params.default.config with idOrder := .BE }
      [0xAA, 0x01, 0x18, 0x20, 0x1F, 0x40, 0x04, 0xB9, 0x1F, 0x38, 0x00, 0xAC] =
    .instr (.packvi ⟨0x01, true, 0x01, 0xF4, false, 0, [0xB9, 0x1F, 0x38, 0x00]⟩) [] ∧
  decode Params.default.config [0xAA, 0xAA, 0xA8, 0xAA, 0x6A, 0x18, 0x04, 0xAA, 0xAA, 0xAA, 0xAA, 0x2A] =
    .instr (.cycles ⟨0xAA, true, 0xAA, 0xAA, true, 0, [0xAA, 0xAA, 0xAA, 0xAA]⟩) [] ∧
  decode Params.default.config [0x55, 0xAA] = .rejected (.resync 0x55)

/-- Decode and encode agree: the envelope of a well-formed command row decodes to that row, whatever follows it,
for every checksum function and both byte orders. -/
def Obligations.DecodeOfEncodeIsTheInstruction : Prop :=
  ∀ (cfg : Config) (i : Instr) (bs rest : List Byte), i.wellFormed = true → encode cfg i = some bs →
    decode cfg (bs ++ rest) = .instr i rest

/-- The other direction: what decodes to an instruction is that instruction's envelope, when the id field's
unused bits 31..29 are zero (they are "ignored on receive and zero on transmit", R50), and it is well-formed. -/
def Obligations.DecodedBytesAreTheEncoding : Prop :=
  ∀ (cfg : Config) (bs rest : List Byte) (i : Instr), decode cfg bs = .instr i rest →
    i.wellFormed = true ∧ ((id32 cfg.idOrder bs).toNat < 2 ^ 29 → ∃ e, encode cfg i = some e ∧ bs = e ++ rest)

/-- R53: the command code alone selects the row. Two frames of one code are the same row whatever else they carry;
the row is the one the opcode table's match and mask select; and no two of the table's rows match one identifier. -/
def Obligations.CommandCodeAloneSelectsTheRow : Prop :=
  (∀ f g : Frame, f.code = g.code → f.instr.mnemonic = g.instr.mnemonic) ∧
  (∀ f : Frame, f.instr.mnemonic = (rowOf f.id).mnemonic) ∧
  (∀ id : CanId, opcodeRows.countP (·.matches id) ≤ 1)

/-- A word of the opcode table placed by withFetchWord is run by the very next step (derived; log entry 12). -/
def Obligations.FetchedTableWordRunsNext : Prop :=
  ∀ (s : State) (nbits w : Nat) (i : Instr), s.par = Params.default → decodeTableWord nbits w = some i →
    step (s.withFetchWord nbits w) = exec i { s with begun := true, buf := [] }

/-- A step performs the host's oldest pending operation; and a step that pushes the byte completing an envelope
runs the instruction the envelope decodes to, the envelope's bytes gone from the buffer (R80, R42). Derived: how
operations wait to be run is the model's choice, log entries 5 and 10. -/
def Obligations.StepRunsTheDecodedInstruction : Prop :=
  (∀ (s : State) (i : Instr) (ops : List Instr), s.pending = i :: ops →
    step s = exec i { s with pending := ops }) ∧
  (∀ (s : State) (b : Byte) (i : Instr) (ops : List Instr), s.begun = true → s.pending = .push b :: ops →
    decode s.cfg (s.buf ++ [b]) = .instr i [] →
    step s = exec i { s with buf := [], pending := ops })

/-! ## The identifier codec -/

/-- R100: IDDEC's five fields by their places, bits 2..0 not looked at; `continuation` only when P_CONT_USED. -/
def Obligations.IddecGivesTheFieldsByPlace : Prop :=
  ∀ (s : State) (n : Nat), n < 2 ^ 29 →
    exec (.iddec n) s = .next (valued s (.ident
      ⟨decide (n / 2 ^ 28 % 2 = 1), BitVec.ofNat 8 (n / 2 ^ 20), BitVec.ofNat 8 (n / 2 ^ 12),
        BitVec.ofNat 8 (n / 2 ^ 4), s.par.contUsed && decide (n / 2 ^ 3 % 2 = 1)⟩))

/-- R101: IDENC's identifier is the sum of the shifted fields ("OR and addition give the same value"); a field
outside its width is refused, not masked. -/
def Obligations.IdencIsTheSumOfShiftedFields : Prop :=
  ∀ (s : State) (p k : Bool) (c d r : Nat),
    (c < 256 → d < 256 → r < 256 →
      exec (.idenc p c d r k) s = .next (valued s (.word
        (BitVec.ofNat 29 (p.toNat * 2 ^ 28 + c * 2 ^ 20 + d * 2 ^ 12 + r * 2 ^ 4 + k.toNat * 2 ^ 3))))) ∧
    (256 ≤ c ∨ 256 ≤ d ∨ 256 ≤ r → exec (.idenc p c d r k) s = .refused .outsideDomain)

/-- R102: IDDEC of IDENC gives the fields back, for all of them with P_CONT_USED and for those without
continuation otherwise; IDENC of IDDEC keeps all bits but 2..0. -/
def Obligations.IdentifierRoundTrip : Prop :=
  (∀ (s : State) (p k : Bool) (c d r : Nat), c < 256 → d < 256 → r < 256 → (s.par.contUsed = true ∨ k = false) →
    ∃ w : CanId, exec (.idenc p c d r k) s = .next (valued s (.word w)) ∧
      exec (.iddec w.toNat) s = .next (valued s (.ident
        ⟨p, BitVec.ofNat 8 c, BitVec.ofNat 8 d, BitVec.ofNat 8 r, k⟩))) ∧
  (∀ (s : State) (n : Nat), n < 2 ^ 29 → s.par.contUsed = true →
    ∃ f : Ident, exec (.iddec n) s = .next (valued s (.ident f)) ∧
      exec (.idenc f.pointToPoint f.commandCode.toNat f.destinationAddress.toNat f.sourceAddress.toNat
        f.continuation) s = .next (valued s (.word (BitVec.ofNat 29 n &&& 0x1FFFFFF8))))

/-- R103: only the command code goes on into the decoder. Two frames with the same code and payload have the same
decode result, whatever their addresses, flags and type byte. -/
def Obligations.OnlyCodeAndPayloadReachTheDecoder : Prop :=
  ∀ (s : State) (c : Byte) (a b : FrameArgs), a.payload = b.payload → a.payload.length ≤ 8 →
    ∃ r, exec (instrOfCode c a) s = .next (shown s c a r) ∧ exec (instrOfCode c b) s = .next (shown s c b r)

/-! ## Domains, completion, frames -/

/-- V11 of 93_implementation_defined.md, R190: an operation completes exactly when its operands lie in its domain
and, for PUSH and FLUSH, the run has begun with RESET. Derived: log entries 7 and 8. -/
def Obligations.OperationsCompleteExactlyOnTheirDomain : Prop :=
  ∀ (i : Instr) (s : State), (∃ t, exec i s = .next t) ↔
    (i.wellFormed = true ∧ (s.begun = true ∨ isStep i = false ∨ i = .reset))

/-- R101, R87, V11: outside its domain an operation is refused, not masked. Derived: log entry 8. -/
def Obligations.OutsideTheDomainIsRefused : Prop :=
  ∀ (i : Instr) (s : State), i.wellFormed = false → exec i s = .refused .outsideDomain

/-- R3, R17: every operation that is no framer step changes the output only, and its output depends on the
parameters and its operands alone. -/
def Obligations.PureOperationsReadNoState : Prop :=
  ∀ (i : Instr) (s₁ s₂ t₁ t₂ : State), isStep i = false → s₁.par = s₂.par →
    exec i s₁ = .next t₁ → exec i s₂ = .next t₂ →
    t₁ = { s₁ with out := t₁.out } ∧ t₁.out = t₂.out

/-- R12, R19: no operation writes a parameter. That none touches what the host has still pending is the model's own
choice, log entry 5: the spec has no such field. -/
def Obligations.ParametersAreNeverWritten : Prop :=
  ∀ (i : Instr) (s t : State), exec i s = .next t → t.par = s.par ∧ t.pending = s.pending

/-- R173 to R175, R80: an item list that is output (a step's or a command row's) holds a framer event only when the
operation is a PUSH, and the event says what stood at the head: `Resync` a byte that is not the sync byte, `LenError` a
length byte above 8. The list that the pure function SCAN answers as its value is not an item list that is output; what
it holds is ScanFollowsItsEquations. -/
def Obligations.FramerEventsComeFromPushOnly : Prop :=
  ∀ (i : Instr) (s t : State) (e : Event), exec i s = .next t → Item.ev e ∈ t.out.itemList →
    (∃ b, i = .push b) ∧ (∀ b, e = .resync b → b ≠ 0xAA) ∧ (∀ n, e = .lenError n → 8 < n.toNat)

/-- With nothing pending a step only clears the output: "else nothing happens" (R21). Derived: the model's choice
for a cycle without inputs, log entry 5. -/
def Obligations.NothingPendingChangesNothing : Prop :=
  ∀ s : State, s.pending = [] → step s = .next (valued s (.items []))

/-! ## Session control and reset -/

/-- R22, R190: what reset leaves, for the values the spec gives. -/
def Obligations.ResetStateIsEmpty : Prop :=
  State.reset.buf = [] ∧ State.reset.out = .items [] ∧ phaseOf State.reset.buf = .scan ∧ State.reset.Inv

/-- R85, R86: RESET and FLUSH empty the buffer and output nothing, whatever it held. -/
def Obligations.ResetAndFlushEmptyTheBuffer : Prop :=
  ∀ s : State,
    exec .reset s = .next { s with buf := [], begun := true, out := .items [] } ∧
    (s.begun = true → exec .flush s = .next { s with buf := [], out := .items [] })

/-- R190: a run that does not begin with RESET has no meaning: PUSH and FLUSH are refused, and RESET begins it.
Derived: the field that records the beginning is the model's, log entry 7. -/
def Obligations.RunMustBeginWithReset : Prop :=
  ∀ (s : State) (b : Byte), s.begun = false →
    exec (.push b) s = .refused .runNotBegun ∧ exec .flush s = .refused .runNotBegun ∧
    ∃ t u, exec .reset s = .next t ∧ exec (.push b) t = .next u

/-- R41, R86: no byte pushed before a flush can become part of a frame after it. The bytes pushed behind a FLUSH
give the items of a fresh scan, from any buffer. -/
def Obligations.FlushForgetsEarlierBytes : Prop :=
  ∀ (s : State) (xs : List Byte), s.begun = true →
    ∃ t, runItems (xs.length + 1) (s.given (.flush :: Instr.chunk xs)) = some ((scan s.cfg xs).1, t) ∧
      t.buf = (scan s.cfg xs).2

/-! ## The framer -/

/-- R80 (1) and R173: at an empty buffer a byte other than 0xAA is discarded with `Resync`, and 0xAA is kept. -/
def Obligations.PushAtAnEmptyBuffer : Prop :=
  ∀ (s : State) (b : Byte), s.begun = true → s.buf = [] →
    (b ≠ 0xAA → exec (.push b) s = .next { s with buf := [], out := .items [.ev (.resync b)] }) ∧
    (b = 0xAA → exec (.push b) s = .next { s with buf := [0xAA], out := .items [] })

/-- R80 (2), (3), R13: in the phases HEADER (below its last byte) and DATA a PUSH only appends its byte; in the
phase CHECK it always outputs something. -/
def Obligations.PushByPhase : Prop :=
  ∀ (s : State) (b : Byte), s.begun = true → s.Inv →
    (phaseOf s.buf = .header → s.buf.length < 6 → exec (.push b) s = .next { s with buf := s.buf ++ [b], out := .items [] }) ∧
    (phaseOf s.buf = .header → s.buf.length = 6 → b.toNat ≤ 8 →
      exec (.push b) s = .next { s with buf := s.buf ++ [b], out := .items [] }) ∧
    (phaseOf s.buf = .data → exec (.push b) s = .next { s with buf := s.buf ++ [b], out := .items [] }) ∧
    (phaseOf s.buf = .check → ∃ t l, exec (.push b) s = .next t ∧ t.out = .items l ∧ l ≠ [])

/-- R80 (length arm and (4)), R174, R175: a candidate with an illegal length byte, as soon as that byte is in, or
with a wrong checksum, once complete, loses its sync byte with the event, and the rest is scanned again in the same
step. -/
def Obligations.RejectedCandidateIsRescanned : Prop :=
  ∀ (s : State) (b : Byte) (body : List Byte), s.begun = true → s.buf ++ [b] = 0xAA :: body → 6 ≤ body.length →
    (8 < (body.getD 5 0).toNat →
      exec (.push b) s = .next { s with
        buf := (scan s.cfg body).2, out := .items (.ev (.lenError (body.getD 5 0)) :: (scan s.cfg body).1) }) ∧
    (∀ (L : Nat), (body.getD 5 0).toNat = L → L ≤ 8 → 7 + L ≤ body.length →
      body.getD (6 + L) 0 ≠ s.par.chk.apply (body.take (6 + L)) →
      exec (.push b) s = .next { s with
        buf := (scan s.cfg body).2, out := .items (.ev .checksumMismatch :: (scan s.cfg body).1) })

/-- R81: MKFRAME's fields from the envelope's bytes, in both byte orders; bits 31..29 of the id field are dropped.
Derived: the sync and the checksum byte are any bytes here, so the statement also holds of lists that are no validated
envelope, which R81 does not promise; that is the model's reading, log entry 9. -/
def Obligations.MkframeReadsTheEnvelope : Prop :=
  ∀ (s : State) (sync t i0 i1 i2 i3 k : Byte) (pay : List Byte), pay.length ≤ 8 →
    exec (.mkframe (sync :: t :: i0 :: i1 :: i2 :: i3 :: BitVec.ofNat 8 pay.length :: (pay ++ [k]))) s =
      .next (valued s (.frame ⟨t,
        BitVec.ofNat 29 (match s.par.idOrder with
          | .LE => le4 i0 i1 i2 i3
          | .BE => le4 i3 i2 i1 i0), pay.length, pay⟩))

/-- R82: the default checksum is the sum modulo 256 of the covered bytes (type, the four id bytes, len and the
data), as ENVENC writes it and as the framer tests it at the end of a candidate, whose four id bytes are any bytes: bits
31..29 of the id field take part (R81). -/
def Obligations.DefaultChecksumIsTheByteSum : Prop :=
  ∀ (s : State) (t : Byte) (pay : List Byte), s.par.chk = .sum8 → pay.length ≤ 8 →
    (∀ id : Nat, id < 2 ^ 29 →
      ∃ body, body = t :: (idBytesOf s.par.idOrder id ++ (BitVec.ofNat 8 pay.length :: pay)) ∧
        exec (.envenc (some t) id pay) s =
          .next (valued s (.envelope (0xAA :: (body ++ [BitVec.ofNat 8 (body.map BitVec.toNat).sum]))))) ∧
    (∀ i0 i1 i2 i3 k : Byte,
      (∃ i, decode s.cfg (0xAA :: t :: i0 :: i1 :: i2 :: i3 :: BitVec.ofNat 8 pay.length :: (pay ++ [k])) = .instr i []) ↔
        k.toNat = (t.toNat + i0.toNat + i1.toNat + i2.toNat + i3.toNat + pay.length +
          (pay.map BitVec.toNat).sum) % 256)

/-- R87: ENVENC's bytes; the type byte is P_TX_TYPE when the host has no other value; outside its domain it is
refused. -/
def Obligations.EnvencWritesTheEnvelope : Prop :=
  ∀ (s : State) (t : Option Byte) (id : Nat) (pay : List Byte),
    (id < 2 ^ 29 → pay.length ≤ 8 →
      ∃ body, body = t.getD s.par.txType :: (idBytesOf s.par.idOrder id ++ (BitVec.ofNat 8 pay.length :: pay)) ∧
        exec (.envenc t id pay) s = .next (valued s (.envelope (0xAA :: (body ++ [s.par.chk.apply body]))))) ∧
    (2 ^ 29 ≤ id ∨ 8 < pay.length → exec (.envenc t id pay) s = .refused .outsideDomain)

/-- R84: SCAN's defining equations, and SCAN as an operation. -/
def Obligations.ScanFollowsItsEquations : Prop :=
  ∀ (s : State) (xs : List Byte),
    exec (.scan xs) s = .next (valued s (.scanned (scan s.cfg xs).1 (scan s.cfg xs).2)) ∧ ScanEquations s.par xs

/-- R84: pushing bytes one at a time gives the items of SCAN and leaves its rest, for the SCAN of R84's equations.
From the reset state, whose buffer is empty, this is R84's own sentence; it holds from every buffer R11 allows. -/
def Obligations.PushingBytesIsScanningThem : Prop :=
  ∀ (s : State) (xs : List Byte), s.begun = true → s.Inv →
    ScanEquations s.par (s.buf ++ xs) ∧
    ∃ t, runItems xs.length (s.given (Instr.chunk xs)) = some ((scan s.cfg (s.buf ++ xs)).1, t) ∧
      t.buf = (scan s.cfg (s.buf ++ xs)).2 ∧ t.begun = true ∧ t.par = s.par ∧ t.pending = []

/-- R194: how a stream is cut into chunks does not matter. Two chunks handed over one after the other, the block
idle in between for any number of steps, give the items of the one chunk they make. -/
def Obligations.ChunkingDoesNotMatter : Prop :=
  ∀ (s : State) (xs ys : List Byte) (n : Nat), s.begun = true → s.Inv →
    ∃ l₁ l₂ t u v, runItems (xs.length + n) (s.given (Instr.chunk xs)) = some (l₁, t) ∧
      runItems ys.length (t.given (Instr.chunk ys)) = some (l₂, u) ∧
      runItems (xs ++ ys).length (s.given (Instr.chunk (xs ++ ys))) = some (l₁ ++ l₂, v) ∧ u.buf = v.buf

/-- R83: a PUSH outputs at most one frame. -/
def Obligations.PushGivesAtMostOneFrame : Prop :=
  ∀ (s t : State) (b : Byte), s.Inv → exec (.push b) s = .next t → (framesOf t.out.itemList).length ≤ 1

/-- R91: a PUSH outputs at most 16 items. -/
def Obligations.PushGivesAtMostSixteenItems : Prop :=
  ∀ (s t : State) (b : Byte), s.Inv → exec (.push b) s = .next t → t.out.itemList.length ≤ 16

/-- R11: every step keeps the buffer invariant, from every state that has it; RESET and FLUSH establish it, from any
state at all. What the invariant says of a buffer is R11's text. -/
def Obligations.EveryStepKeepsTheBufferInvariant : Prop :=
  (∀ s t : State, s.Inv → step s = .next t → t.Inv) ∧
  (∀ s t : State, exec .reset s = .next t ∨ exec .flush s = .next t → t.Inv) ∧
  (∀ s : State, s.Inv ↔ (s.begun = true → s.buf = [] ∨ (s.buf.head? = some 0xAA ∧ (s.buf.length < 7 ∨
    (7 ≤ s.buf.length ∧ (s.buf.getD 6 0).toNat ≤ 8 ∧ s.buf.length < 8 + (s.buf.getD 6 0).toNat)))))

/-- R10: between steps the buffer holds at most 15 bytes and is empty or starts with the sync byte; R13: which of the
four phases it is in, each by R13's condition, and that a length byte already in is legal. -/
def Obligations.BufferIsBounded : Prop :=
  ∀ s : State, s.begun = true → s.Inv →
    s.buf.length ≤ 15 ∧ (s.buf = [] ∨ s.buf.getD 0 0 = 0xAA) ∧
    (phaseOf s.buf = .data ∨ phaseOf s.buf = .check → (s.buf.getD 6 0).toNat ≤ 8) ∧
    (phaseOf s.buf = .scan ↔ s.buf.length = 0) ∧
    (phaseOf s.buf = .header ↔ 1 ≤ s.buf.length ∧ s.buf.length < 7) ∧
    (phaseOf s.buf = .data ↔ 7 ≤ s.buf.length ∧ s.buf.length < 7 + (s.buf.getD 6 0).toNat) ∧
    (phaseOf s.buf = .check ↔ s.buf.length = 7 + (s.buf.getD 6 0).toNat)

/-- R30: every byte of a scanned stream meets exactly one fate. The stream is the items' stretches laid end to
end, each the discarded byte of an event or the valid envelope of a frame, and what is left is an incomplete
candidate. -/
def Obligations.EveryByteHasOneFate : Prop :=
  ∀ (cfg : Config) (xs : List Byte), ∃ segs : List (List Byte),
    List.Forall₂ (fun it seg => it.spells cfg seg) (scan cfg xs).1 segs ∧
    xs = segs.flatten ++ (scan cfg xs).2 ∧ bufOk (scan cfg xs).2 = true

/-- R16, R42: in a frame's item the identifier fields and the result belong to that frame, and its length is its
payload's, at most 8. -/
def Obligations.FrameItemsAreCoherent : Prop :=
  ∀ (s t : State) (b : Byte) (f : Frame) (i : Ident) (r : Result), exec (.push b) s = .next t →
    Item.fr f i r ∈ t.out.itemList →
    f.len = f.payload.length ∧ f.len ≤ 8 ∧
    exec (.iddec f.id.toNat) s = .next (valued s (.ident i)) ∧
    exec (.decode i.commandCode f.payload) s = .next (valued s (.result r))

/-- R88: pushing the bytes of ENVENC into an empty buffer gives nothing before the last byte, and then exactly the
frame it was given and no event; the buffer is empty. -/
def Obligations.EnvelopeRoundTrip : Prop :=
  ∀ (s : State) (t : Byte) (id : Nat) (pay : List Byte), s.begun = true → s.buf = [] → id < 2 ^ 29 → pay.length ≤ 8 →
    ∃ e i r u v, exec (.envenc (some t) id pay) s = .next (valued s (.envelope e)) ∧
      runItems (e.length - 1) (s.given (Instr.chunk e)) = some ([], u) ∧
      runItems e.length (s.given (Instr.chunk e)) =
        some ([.fr ⟨t, BitVec.ofNat 29 id, pay.length, pay⟩ i r], v) ∧ v.buf = []

/-- R89 (a), (b): at an empty buffer, bytes that are not 0xAA are discarded one `Resync` each, and a valid envelope
behind them is then emitted with the item its instruction gives. -/
def Obligations.ResynchronisationRecovers : Prop :=
  ∀ (s : State) (gs e : List Byte) (i : Instr), s.begun = true → s.buf = [] → (∀ g ∈ gs, g ≠ 0xAA) →
    i.wellFormed = true → encode s.cfg i = some e →
    ∃ it u, exec i s = .next (valued s (.items [it])) ∧
      runItems (gs ++ e).length (s.given (Instr.chunk (gs ++ e))) =
        some (gs.map (fun g => .ev (.resync g)) ++ [it], u) ∧ u.buf = []

/-! ## The decoder -/

/-- R111: DECODE and the command rows give the same result, the one of the code's row; R172 names the tag. -/
def Obligations.DecodeDispatchesByCode : Prop :=
  ∀ (s : State) (c : Byte) (a : FrameArgs), a.payload.length ≤ 8 →
    ∃ r, exec (.decode c a.payload) s = .next (valued s (.result r)) ∧
      exec (instrOfCode c a) s = .next (shown s c a r) ∧
      (r.isFailure = false → r.tag = match (instrOfCode c a).mnemonic with
        | "LIMITS" => 0 | "SOCSOH" => 1 | "PACKVI" => 2 | "CELLV" => 3 | "CELLT" => 4 | "OPSTAT" => 5
        | "CYCLES" => 6 | "ENERGY" => 7 | "TEXT" => 8 | "ALARM" => 9 | "OPAQUE" => 10 | _ => 11)

/-- R112, R59: a payload shorter than the required length gives `InsufficientData` with the code, the required and
the actual length and no telemetry field, and the frame is output all the same; the required lengths are R59's. -/
def Obligations.ShortPayloadIsInsufficientData : Prop :=
  (∀ (s : State) (c : Byte) (a : FrameArgs), a.payload.length < reqLen c →
    exec (.decode c a.payload) s = .next (valued s (.result (.insufficientData c (reqLen c) a.payload.length))) ∧
    exec (instrOfCode c a) s = .next (shown s c a (.insufficientData c (reqLen c) a.payload.length)) ∧
    reqLen c ≤ 8 ∧ (Result.insufficientData c (reqLen c) a.payload.length).raws = []) ∧
  (∀ c : Byte, reqLen c = match c.toNat with
    | 0x80 => 8 | 0x81 => 6 | 0x82 => 4 | 0x83 => 8 | 0x84 => 8 | 0x85 => 4 | 0x86 => 4 | 0x87 => 8 | 0xC0 => 8
    | _ => 0)

/-- R113: bytes behind the required length are not read. -/
def Obligations.ExtraPayloadBytesAreIgnored : Prop :=
  ∀ (s : State) (c : Byte) (pay extra : List Byte), c ∈ ([0x81, 0x82, 0x85, 0x86] : List Byte) →
    reqLen c ≤ pay.length → (pay ++ extra).length ≤ 8 →
    ∃ r, exec (.decode c (pay ++ extra)) s = .next (valued s (.result r)) ∧
      exec (.decode c pay) s = .next (valued s (.result r)) ∧ r.isFailure = false

/-- R178, R176, R112: a result carries at most one condition. It is a failure exactly when a code with a required
length has a shorter payload, with `1 <= required <= 8` and `actual < required`; it carries `UnknownCommand` exactly
when the code is not one of the eleven. -/
def Obligations.ResultConditionsAreExclusive : Prop :=
  ∀ (cfg : Config) (c : Byte) (pay : List Byte),
    ((decodePayload cfg c pay).isFailure = true ↔ pay.length < reqLen c) ∧
    ((decodePayload cfg c pay).condition = some .unknownCommand ↔
      c ∉ ([0x80, 0x81, 0x82, 0x83, 0x84, 0x85, 0x86, 0x87, 0x8F, 0xC0, 0xD0] : List Byte)) ∧
    (∀ k q n, decodePayload cfg c pay = .insufficientData k q n → k = c ∧ 1 ≤ q ∧ q ≤ 8 ∧ n < q ∧ n = pay.length)

/-- R54, R60 to R69, R36: every field of a result is the raw integer its layout entry reads from the payload. -/
def Obligations.ResultFieldsFollowTheLayout : Prop :=
  ∀ (cfg : Config) (c : Byte) (pay : List Byte) (l : FieldLayout), l ∈ layoutOf c → reqLen c ≤ pay.length →
    (decodePayload cfg c pay).rawOf l.field = some (l.read cfg.limitISigned pay)

/-- R73: within a layout no payload byte belongs to two fields, and every byte below the required length belongs
to one. -/
def Obligations.LayoutFieldsDoNotOverlap : Prop :=
  ∀ (c : Byte) (off : Nat), fieldsAt c off = if off < reqLen c then 1 else 0

/-- R120: command 0x80. -/
def Obligations.LimitsResult : Prop :=
  (∀ (s : State) (a : FrameArgs) (b0 b1 b2 b3 b4 b5 b6 b7 : Byte), a.payload = [b0, b1, b2, b3, b4, b5, b6, b7] →
      ∃ r : Limits, exec (.limits a) s = .next (shown s 0x80 a (.limits r)) ∧
        r.chargeV.toNat = le2 b0 b1 ∧ r.dischargeV.toNat = le2 b4 b5 ∧
        r.chargeI.value = (if s.par.limitISigned then signed16 (le2 b2 b3) else (le2 b2 b3 : Int)) ∧
        r.dischargeI.value = (if s.par.limitISigned then signed16 (le2 b6 b7) else (le2 b6 b7 : Int))) ∧
  FailsBelow .limits 0x80 8 ∧
  Scaled [(.chargeV, 1, .volt), (.chargeI, 1, .ampere), (.dischargeV, 1, .volt), (.dischargeI, 1, .ampere)]

/-- R121: command 0x81; bytes 6 and 7, if present, are ignored. -/
def Obligations.SocSohResult : Prop :=
  (∀ (s : State) (a : FrameArgs) (b0 b1 b2 b3 b4 b5 : Byte) (more : List Byte), more.length ≤ 2 →
      a.payload = b0 :: b1 :: b2 :: b3 :: b4 :: b5 :: more →
      ∃ r : SocSoh, exec (.socsoh a) s = .next (shown s 0x81 a (.socSoh r)) ∧
        r.soc.toNat = le2 b0 b1 ∧ r.soh.toNat = le2 b2 b3 ∧ r.backupMinutes.toNat = le2 b4 b5) ∧
  FailsBelow .socsoh 0x81 6 ∧
  Scaled [(.soc, 1, .percent), (.soh, 1, .percent), (.backupMinutes, 0, .minute)]

/-- R122, R123: command 0x82; the power is the voltage times the current's absolute value, without overflow. -/
def Obligations.PackViResult : Prop :=
  (∀ (s : State) (a : FrameArgs) (b0 b1 b2 b3 : Byte) (more : List Byte), more.length ≤ 4 →
      a.payload = b0 :: b1 :: b2 :: b3 :: more →
      ∃ r : PackVI, exec (.packvi a) s = .next (shown s 0x82 a (.packVI r)) ∧
        r.voltage.toNat = le2 b0 b1 ∧ r.current.toInt = signed16 (le2 b2 b3) ∧
        (r.power.toNat : Int) = (le2 b0 b1 : Int) * |signed16 (le2 b2 b3)| ∧ r.power.toNat ≤ 2147450880) ∧
  FailsBelow .packvi 0x82 4 ∧
  Scaled [(.voltage, 1, .volt), (.current, 1, .ampere), (.power, 5, .kilowatt)]

/-- R123: the power is the integer voltage × |current|, in 0..2147450880; as physical values it is voltage × |current|
/ 1000 exactly. -/
def Obligations.PowerIsVoltageTimesCurrent : Prop :=
  ∀ (cfg : Config) (pay : List Byte) (r : PackVI), decodePayload cfg 0x82 pay = .packVI r →
    (r.power.toNat : Int) = r.voltage.toNat * |r.current.toInt| ∧ r.power.toNat ≤ 2147450880 ∧
    Field.physical .power r.power.toNat =
      Field.physical .voltage r.voltage.toNat * |Field.physical .current r.current.toInt| / 1000

/-- R124: command 0x83; delta is the exact difference, negative where min is above max. -/
def Obligations.CellVResult : Prop :=
  (∀ (s : State) (a : FrameArgs) (b0 b1 b2 b3 b4 b5 b6 b7 : Byte), a.payload = [b0, b1, b2, b3, b4, b5, b6, b7] →
      ∃ r : CellV, exec (.cellv a) s = .next (shown s 0x83 a (.cellV r)) ∧
        r.maxV.toNat = le2 b0 b1 ∧ r.maxPack = b2 ∧ r.maxCell = b3 ∧
        r.minV.toNat = le2 b4 b5 ∧ r.minPack = b6 ∧ r.minCell = b7 ∧
        r.delta.toInt = (le2 b0 b1 : Int) - (le2 b4 b5 : Int)) ∧
  FailsBelow .cellv 0x83 8 ∧
  Scaled [(.maxV, 3, .volt), (.minV, 3, .volt), (.deltaV, 3, .volt)]

/-- R125: command 0x84; both temperatures are signed and delta is their exact difference. -/
def Obligations.CellTResult : Prop :=
  (∀ (s : State) (a : FrameArgs) (b0 b1 b2 b3 b4 b5 b6 b7 : Byte), a.payload = [b0, b1, b2, b3, b4, b5, b6, b7] →
      ∃ r : CellT, exec (.cellt a) s = .next (shown s 0x84 a (.cellT r)) ∧
        r.maxT.toInt = signed16 (le2 b0 b1) ∧ r.maxPack = b2 ∧ r.maxSensor = b3 ∧
        r.minT.toInt = signed16 (le2 b4 b5) ∧ r.minPack = b6 ∧ r.minSensor = b7 ∧
        r.delta.toInt = signed16 (le2 b0 b1) - signed16 (le2 b4 b5)) ∧
  FailsBelow .cellt 0x84 8 ∧
  Scaled [(.maxT, 1, .celsius), (.minT, 1, .celsius), (.deltaT, 1, .celsius)]

/-- R126, R72: command 0x85; the status bytes pass through with their range indications, and each prohibition flag
is the comparison of its configured bit with its configured value. -/
def Obligations.OpStatResult : Prop :=
  (∀ (s : State) (a : FrameArgs) (b0 b1 b2 b3 : Byte) (more : List Byte), more.length ≤ 4 →
      a.payload = b0 :: b1 :: b2 :: b3 :: more →
      exec (.opstat a) s = .next (shown s 0x85 a (.opStatus
        { systemStatus := b0, workStatus := b1, opStatus := b2, flags := b3,
          systemStatus_inRange := decide (b0.toNat ≤ 7), workStatus_inRange := decide (b1.toNat ≤ 2),
          opStatus_inRange := decide (b2.toNat ≤ 3),
          chargeProhibited := b3.toNat / 2 ^ s.par.flagChg.bit.val % 2 == s.par.flagChg.prohibitedWhen.toNat,
          dischargeProhibited := b3.toNat / 2 ^ s.par.flagDis.bit.val % 2 == s.par.flagDis.prohibitedWhen.toNat,
          hardDischargeProhibited :=
            b3.toNat / 2 ^ s.par.flagHardDis.bit.val % 2 == s.par.flagHardDis.prohibitedWhen.toNat }))) ∧
  FailsBelow .opstat 0x85 4

/-- R127: command 0x86. -/
def Obligations.CyclesResult : Prop :=
  (∀ (s : State) (a : FrameArgs) (b0 b1 b2 b3 : Byte) (more : List Byte), more.length ≤ 4 →
      a.payload = b0 :: b1 :: b2 :: b3 :: more →
      ∃ r : Cycles, exec (.cycles a) s = .next (shown s 0x86 a (.cycles r)) ∧
        r.chargeTimes.toNat = le2 b0 b1 ∧ r.dischargeTimes.toNat = le2 b2 b3) ∧
  FailsBelow .cycles 0x86 4 ∧
  Scaled [(.chargeTimes, 0, .plain), (.dischargeTimes, 0, .plain)]

/-- R128: command 0x87; the 32-bit fields are unsigned. -/
def Obligations.EnergyResult : Prop :=
  (∀ (s : State) (a : FrameArgs) (b0 b1 b2 b3 b4 b5 b6 b7 : Byte), a.payload = [b0, b1, b2, b3, b4, b5, b6, b7] →
      ∃ r : Energy, exec (.energy a) s = .next (shown s 0x87 a (.energy r)) ∧
        r.chargeEnergy.toNat = le4 b0 b1 b2 b3 ∧ r.dischargeEnergy.toNat = le4 b4 b5 b6 b7) ∧
  FailsBelow .energy 0x87 8 ∧
  Scaled [(.chargeEnergy, 1, .kilowattHour), (.dischargeEnergy, 1, .kilowattHour)]

/-- R129: command 0x8F; zero bytes are removed wherever they stand, and the order of the others is kept. -/
def Obligations.TextResult : Prop :=
  ∀ (s : State) (a : FrameArgs), a.payload.length ≤ 8 →
    ∃ t : List Byte, exec (.text a) s = .next (shown s 0x8F a (.text t)) ∧
      t.Sublist a.payload ∧ (∀ b, t.count b = if b = 0 then 0 else a.payload.count b) ∧
      t.length = a.payload.length - a.payload.count 0

/-- R130, R131: commands 0xD0 and the unknown codes copy the payload; a named code is no RAW frame. -/
def Obligations.OpaqueAndRawCopyThePayload : Prop :=
  ∀ (s : State) (a : FrameArgs) (c : Byte), a.payload.length ≤ 8 →
    exec (.opaqueCode a) s = .next (shown s 0xD0 a (.opaquePayload a.payload)) ∧
    (c ∉ ([0x80, 0x81, 0x82, 0x83, 0x84, 0x85, 0x86, 0x87, 0x8F, 0xC0, 0xD0] : List Byte) →
      exec (.raw c a) s = .next (shown s c a (.raw c a.payload))) ∧
    (Result.opaquePayload a.payload).condition = none ∧ (Result.raw c a.payload).condition = some .unknownCommand

/-- R150, R152, R34: command 0xC0 and ALARMDEC. -/
def Obligations.AlarmResult : Prop :=
  (∀ (s : State) (a : FrameArgs), a.payload.length = 8 →
      ∃ r : AlarmSet, exec (.alarm a) s = .next (shown s 0xC0 a (.alarm r)) ∧
        exec (.alarmdec a.payload) s = .next (valued s (.result (.alarm r))) ∧ IsAlarmSetOf r a.payload) ∧
  FailsBelow .alarm 0xC0 8

/-- R151: the severity table, by its two lists and its default clause. -/
def Obligations.SeverityTable : Prop :=
  (∀ b < 64, sev b = if b ∈ [0, 1, 14] ∨ 18 ≤ b ∧ b ≤ 32 then 3 else if 2 ≤ b ∧ b ≤ 9 then 2 else 1) ∧
  sevTable.length = 64 ∧ sevTable.count 3 = 18 ∧ sevTable.count 2 = 8 ∧ sevTable.count 1 = 38

/-! ## Ports -/

/-- R21: a cycle with `rst` is RESET, whatever else is asked for and whether or not the run has begun; else one with
`flush` is FLUSH, refused before the run has begun (R190); else one with `in_valid` is the PUSH of its byte; else nothing
happens. With their effects, where they have one. Derived: that nothing stays pending after a cycle is the model's, log
entry 5, and that the run's beginning is recorded, log entry 7. -/
def Obligations.PortPriority : Prop :=
  ∀ (s : State) (p : PortIn),
    (p.rst = true →
      portStep s p = exec .reset { s with pending := [] } ∧
      portStep s p = .next { s with buf := [], begun := true, pending := [], out := .items [] }) ∧
    (p.rst = false → p.flush = true →
      portStep s p = exec .flush { s with pending := [] } ∧
      (s.begun = true → portStep s p = .next { s with buf := [], pending := [], out := .items [] }) ∧
      (s.begun = false → portStep s p = .refused .runNotBegun)) ∧
    (p.rst = false → p.flush = false → p.inValid = true →
      portStep s p = exec (.push p.inByte) { s with pending := [] }) ∧
    (p.rst = false → p.flush = false → p.inValid = false → portStep s p = .next { s with pending := [], out := .items [] })

/-- R21: after a PUSH the ports show the frame of its item list with its identifier fields and its tag, payload byte i
in bits 8i+7..8i and unused bytes zero; every frame, identifier and result output is zero when it has none, and every
telemetry output when the result is `InsufficientData`; each event count is the number of the list's events of its own
kind, unwrapped. -/
def Obligations.PortsShowTheStep : Prop :=
  ∀ (s t : State) (b : Byte), s.Inv → exec (.push b) s = .next t →
    ((portOut t.out).frameValid = true ↔ framesOf t.out.itemList ≠ []) ∧
    (framesOf t.out.itemList = [] →
      (portOut t.out).frameType = 0 ∧ (portOut t.out).frameId = 0 ∧ (portOut t.out).frameLen = 0 ∧
      (portOut t.out).frameData = 0 ∧ (portOut t.out).idPtp = false ∧ (portOut t.out).idCmd = 0 ∧
      (portOut t.out).idDst = 0 ∧ (portOut t.out).idSrc = 0 ∧ (portOut t.out).idCont = false ∧
      (portOut t.out).resKind = 0 ∧ TelemetryZero t.out ∧
      portCode t.out = 0 ∧ portRequired t.out = 0 ∧ portActual t.out = 0) ∧
    (∀ f i r, framesOf t.out.itemList = [(f, i, r)] →
      (portOut t.out).frameType = f.ftype ∧ (portOut t.out).frameId = f.id ∧
      (portOut t.out).frameLen.toNat = f.len ∧
      (∀ k < 8, (portOut t.out).frameData.extractLsb' (8 * k) 8 = f.payload.getD k 0) ∧
      (portOut t.out).idPtp = i.pointToPoint ∧ (portOut t.out).idCmd = i.commandCode ∧
      (portOut t.out).idDst = i.destinationAddress ∧ (portOut t.out).idSrc = i.sourceAddress ∧
      (portOut t.out).idCont = i.continuation ∧ (portOut t.out).resKind = r.tag ∧
      (r.tag = 12 → TelemetryZero t.out)) ∧
    (portOut t.out).evResyncCount.toNat =
      eventsLike (fun | .resync _ => true | .checksumMismatch => false | .lenError _ => false) t.out.itemList ∧
    (portOut t.out).evChkCount.toNat =
      eventsLike (fun | .resync _ => false | .checksumMismatch => true | .lenError _ => false) t.out.itemList ∧
    (portOut t.out).evLenCount.toNat =
      eventsLike (fun | .resync _ => false | .checksumMismatch => false | .lenError _ => true) t.out.itemList

/-- R21, R18: after a PUSH that outputs a frame every field of its result but an Alarm's `active` has its output: the numbers
(a layout's raw integers, and the derived power, deltas, count and severity), the six indications, the byte lists, the
code, and the lengths of `InsufficientData`, which four bits hold; `active`, which has none, is the ascending list of the
set positions of the mask that is shown (R150). Derived: one output for each field, and none for `active`, is the
model's, log entry 14. -/
def Obligations.PortsShowTheResult : Prop :=
  ∀ (s t : State) (b : Byte) (f : Frame) (i : Ident) (r : Result), s.Inv → exec (.push b) s = .next t →
    framesOf t.out.itemList = [(f, i, r)] →
    (reqLen i.commandCode ≤ f.payload.length → ∀ l ∈ layoutOf i.commandCode,
      portField t.out l.field = l.read s.par.limitISigned f.payload) ∧
    (∀ x, r = .packVI x → portField t.out .power = x.power.toNat) ∧
    (∀ x, r = .cellV x → portField t.out .deltaV = x.delta.toInt) ∧
    (∀ x, r = .cellT x → portField t.out .deltaT = x.delta.toInt) ∧
    (∀ x, r = .alarm x →
      portField t.out .mask = x.mask.toNat ∧ portField t.out .count = x.count ∧
      portField t.out .maxSeverity = x.maxSeverity ∧ x.active.Pairwise (· < ·) ∧
      ∀ k, k ∈ x.active ↔ k < 64 ∧ (portField t.out .mask).toNat.testBit k = true) ∧
    (∀ x, r = .opStatus x →
      portFlag t.out .systemStatus_inRange = x.systemStatus_inRange ∧
      portFlag t.out .workStatus_inRange = x.workStatus_inRange ∧
      portFlag t.out .opStatus_inRange = x.opStatus_inRange ∧
      portFlag t.out .chargeProhibited = x.chargeProhibited ∧
      portFlag t.out .dischargeProhibited = x.dischargeProhibited ∧
      portFlag t.out .hardDischargeProhibited = x.hardDischargeProhibited) ∧
    (∀ bs, r = .text bs → portBytes t.out = bs) ∧
    (∀ bs, r = .opaquePayload bs → portBytes t.out = bs) ∧
    (∀ c bs, r = .raw c bs → portCode t.out = c ∧ portBytes t.out = bs) ∧
    (∀ c q n, r = .insufficientData c q n →
      portCode t.out = c ∧ (portRequired t.out).toNat = q ∧ (portActual t.out).toNat = n)
end

