-- ==== Sys2Proof/Laws/State.lean ====
section
/-! SUPPORT. One lemma per field per update of State, true by rfl. -/

namespace Sys2Proof.Machine

@[simp] theorem State.returns_buf (s : State) (o : Output) : (s.returns o).buf = s.buf := rfl
@[simp] theorem State.returns_begun (s : State) (o : Output) : (s.returns o).begun = s.begun := rfl
@[simp] theorem State.returns_par (s : State) (o : Output) : (s.returns o).par = s.par := rfl
@[simp] theorem State.returns_pending (s : State) (o : Output) : (s.returns o).pending = s.pending := rfl
@[simp] theorem State.returns_out (s : State) (o : Output) : (s.returns o).out = o := rfl

@[simp] theorem State.setBuf_buf (s : State) (bs : List Byte) : (s.setBuf bs).buf = bs := rfl
@[simp] theorem State.setBuf_begun (s : State) (bs : List Byte) : (s.setBuf bs).begun = s.begun := rfl
@[simp] theorem State.setBuf_par (s : State) (bs : List Byte) : (s.setBuf bs).par = s.par := rfl
@[simp] theorem State.setBuf_pending (s : State) (bs : List Byte) : (s.setBuf bs).pending = s.pending := rfl
@[simp] theorem State.setBuf_out (s : State) (bs : List Byte) : (s.setBuf bs).out = s.out := rfl

@[simp] theorem State.begin_buf (s : State) : s.begin.buf = s.buf := rfl
@[simp] theorem State.begin_begun (s : State) : s.begin.begun = true := rfl
@[simp] theorem State.begin_par (s : State) : s.begin.par = s.par := rfl
@[simp] theorem State.begin_pending (s : State) : s.begin.pending = s.pending := rfl
@[simp] theorem State.begin_out (s : State) : s.begin.out = s.out := rfl

@[simp] theorem State.given_buf (s : State) (ops : List Instr) : (s.given ops).buf = s.buf := rfl
@[simp] theorem State.given_begun (s : State) (ops : List Instr) : (s.given ops).begun = s.begun := rfl
@[simp] theorem State.given_par (s : State) (ops : List Instr) : (s.given ops).par = s.par := rfl
@[simp] theorem State.given_pending (s : State) (ops : List Instr) : (s.given ops).pending = ops := rfl
@[simp] theorem State.given_out (s : State) (ops : List Instr) : (s.given ops).out = s.out := rfl

/-- The reset state, field by field (R22, R190). -/
@[simp] theorem State.reset_buf : State.reset.buf = [] := rfl
@[simp] theorem State.reset_begun : State.reset.begun = true := rfl
@[simp] theorem State.reset_par : State.reset.par = Params.default := rfl
@[simp] theorem State.reset_pending : State.reset.pending = [] := rfl
@[simp] theorem State.reset_out : State.reset.out = .items [] := rfl

/-- The parameters, as the functions take them. -/
@[simp] theorem Params.config_idOrder (p : Params) : p.config.idOrder = p.idOrder := rfl
@[simp] theorem Params.config_chk (p : Params) : p.config.chk = p.chk.apply := rfl
@[simp] theorem Params.config_txType (p : Params) : p.config.txType = p.txType := rfl
@[simp] theorem Params.config_contUsed (p : Params) : p.config.contUsed = p.contUsed := rfl
@[simp] theorem Params.config_limitISigned (p : Params) : p.config.limitISigned = p.limitISigned := rfl
@[simp] theorem Params.config_flagChg (p : Params) : p.config.flagChg = p.flagChg := rfl
@[simp] theorem Params.config_flagDis (p : Params) : p.config.flagDis = p.flagDis := rfl
@[simp] theorem Params.config_flagHardDis (p : Params) : p.config.flagHardDis = p.flagHardDis := rfl

end Sys2Proof.Machine
end

