-- ==== Sys2Proof/Laws/Ops.lean ====
section
/-! SUPPORT. One lemma for each shared operation: everything it can answer. -/

namespace Sys2Proof.Machine

theorem inDomain_pos {ok : Bool} (h : ok = true) (s : State) (o : Output) :
    inDomain ok s o = .next (s.returns o) := by simp [inDomain, h]

theorem inDomain_neg {ok : Bool} (h : ok = false) (s : State) (o : Output) :
    inDomain ok s o = .refused .outsideDomain := by simp [inDomain, h]

/-- An operation kept to its domain answers a next state only there, and only its output changes. -/
theorem inDomain_next {ok : Bool} {s t : State} {o : Output} (h : inDomain ok s o = .next t) :
    ok = true ∧ t = s.returns o := by
  cases ok <;> simp_all [inDomain]

theorem afterReset_pos {s : State} (h : s.begun = true) (t : State) : afterReset s t = .next t := by
  simp [afterReset, h]

theorem afterReset_neg {s : State} (h : s.begun = false) (t : State) :
    afterReset s t = .refused .runNotBegun := by simp [afterReset, h]

/-- A step of the framer answers a next state only in a run that has begun. -/
theorem afterReset_next {s t u : State} (h : afterReset s t = .next u) : s.begun = true ∧ u = t := by
  unfold afterReset at h
  split at h <;> simp_all

/-- A command row answers a next state only for a payload of at most eight bytes, and only its output changes. -/
theorem deliver_next {c : Byte} {a : FrameArgs} {r : Result} {s t : State} (h : deliver c a r s = .next t) :
    a.payload.length ≤ MAX_LEN ∧ t = s.returns (.items [frameItem s.cfg (a.frame c) r]) := by
  simpa using inDomain_next h

theorem deliver_pos {c : Byte} {a : FrameArgs} (h : a.payload.length ≤ MAX_LEN) (r : Result) (s : State) :
    deliver c a r s = .next (s.returns (.items [frameItem s.cfg (a.frame c) r])) :=
  inDomain_pos (by simpa using h) _ _

theorem deliver_neg {c : Byte} {a : FrameArgs} (h : ¬ a.payload.length ≤ MAX_LEN) (r : Result) (s : State) :
    deliver c a r s = .refused .outsideDomain :=
  inDomain_neg (by simpa using h) _ _

theorem requireLen_short {c : Byte} {pay : List Byte} (h : pay.length < reqLen c) (r : Result) :
    requireLen c pay r = .insufficientData c (reqLen c) pay.length := by simp [requireLen, h]

theorem requireLen_enough {c : Byte} {pay : List Byte} (h : reqLen c ≤ pay.length) (r : Result) :
    requireLen c pay r = r := by simp [requireLen, Nat.not_lt.mpr h]

/-- The required lengths of the named codes (R59). -/
@[simp] theorem reqLen_80 : reqLen 0x80#8 = 8 := rfl
@[simp] theorem reqLen_81 : reqLen 0x81#8 = 6 := rfl
@[simp] theorem reqLen_82 : reqLen 0x82#8 = 4 := rfl
@[simp] theorem reqLen_83 : reqLen 0x83#8 = 8 := rfl
@[simp] theorem reqLen_84 : reqLen 0x84#8 = 8 := rfl
@[simp] theorem reqLen_85 : reqLen 0x85#8 = 4 := rfl
@[simp] theorem reqLen_86 : reqLen 0x86#8 = 4 := rfl
@[simp] theorem reqLen_87 : reqLen 0x87#8 = 8 := rfl
@[simp] theorem reqLen_8F : reqLen 0x8F#8 = 0 := rfl
@[simp] theorem reqLen_C0 : reqLen 0xC0#8 = 8 := rfl
@[simp] theorem reqLen_D0 : reqLen 0xD0#8 = 0 := rfl

/-- Every required length is at most 8 (R112). -/
theorem reqLen_le (c : Byte) : reqLen c ≤ MAX_LEN := by
  unfold reqLen MAX_LEN
  repeat' split
  all_goals omega

/-- An unknown code requires nothing (R59). -/
theorem reqLen_unknown {c : Byte} (h : c ∉ namedCodes) : reqLen c = 0 := by
  simp [namedCodes] at h
  simp [reqLen, h]

/-- With nothing pending, a step only clears the output. -/
theorem step_idle {s : State} (h : s.pending = []) : step s = .next (s.returns (.items [])) := by
  simp [step, h, idle]

/-- With an operation pending, a step performs it. -/
theorem step_pending {s : State} {i : Instr} {rest : List Instr} (h : s.pending = i :: rest) :
    step s = exec i { s with pending := rest } := by
  simp [step, h]

/-- Every operation that answers a next state leaves the parameters and the pending operations as they are; one
that is no step of the framer changes the output only. -/
theorem exec_next_cases {i : Instr} {s t : State} (h : exec i s = .next t) :
    (∃ o, t = s.returns o) ∨
    (∃ b, i = .push b ∧ s.begun = true ∧
      t = (s.setBuf (scan s.cfg (s.buf ++ [b])).2).returns (.items (scan s.cfg (s.buf ++ [b])).1)) ∨
    (i = .reset ∧ t = ((s.setBuf []).begin).returns (.items [])) ∨
    (i = .flush ∧ s.begun = true ∧ t = (s.setBuf []).returns (.items [])) := by
  cases i with
  | push b => exact .inr (.inl ⟨b, rfl, afterReset_next h⟩)
  | reset =>
    simp only [exec, execReset, Host.Outcome.next.injEq] at h
    exact .inr (.inr (.inl ⟨rfl, h.symm⟩))
  | flush => exact .inr (.inr (.inr ⟨rfl, afterReset_next h⟩))
  | raw c f =>
    simp only [exec, execRaw] at h
    split at h
    · cases h
    · exact .inl ⟨_, (deliver_next h).2⟩
  | scan xs =>
    simp only [exec, execScan, Host.Outcome.next.injEq] at h
    exact .inl ⟨_, h.symm⟩
  | envenc t id pay => exact .inl ⟨_, (inDomain_next h).2⟩
  | iddec id => exact .inl ⟨_, (inDomain_next h).2⟩
  | idenc p c d r k => exact .inl ⟨_, (inDomain_next h).2⟩
  | decode c pay => exact .inl ⟨_, (inDomain_next h).2⟩
  | alarmdec pay => exact .inl ⟨_, (inDomain_next h).2⟩
  | mkframe e => exact .inl ⟨_, (inDomain_next h).2⟩
  | limits f => exact .inl ⟨_, (deliver_next h).2⟩
  | socsoh f => exact .inl ⟨_, (deliver_next h).2⟩
  | packvi f => exact .inl ⟨_, (deliver_next h).2⟩
  | cellv f => exact .inl ⟨_, (deliver_next h).2⟩
  | cellt f => exact .inl ⟨_, (deliver_next h).2⟩
  | opstat f => exact .inl ⟨_, (deliver_next h).2⟩
  | cycles f => exact .inl ⟨_, (deliver_next h).2⟩
  | energy f => exact .inl ⟨_, (deliver_next h).2⟩
  | text f => exact .inl ⟨_, (deliver_next h).2⟩
  | alarm f => exact .inl ⟨_, (deliver_next h).2⟩
  | opaqueCode f => exact .inl ⟨_, (deliver_next h).2⟩

end Sys2Proof.Machine
end

