-- ==== Sys2Proof/Laws/Operands.lean ====
section
/-! SUPPORT. Payload reads, byte by byte, with their ranges (R33, R114); stores of signed values; what a longer payload changes (nothing: R113). -/

namespace Sys2Proof.Machine

/-- The bytes of a read, written out (R33). -/
theorem u8_eq (pay : List Byte) (off : Nat) : u8 pay off = (pay.getD off 0).toNat := by
  simp [u8, memRead]

theorem u16le_eq (pay : List Byte) (off : Nat) :
    u16le pay off = (pay.getD off 0).toNat + 256 * (pay.getD (off + 1) 0).toNat := by
  simp [u16le, memRead, Nat.shiftLeft_eq]
  omega

theorem u32le_eq (pay : List Byte) (off : Nat) :
    u32le pay off = (pay.getD off 0).toNat + 256 * (pay.getD (off + 1) 0).toNat +
      65536 * (pay.getD (off + 2) 0).toNat + 16777216 * (pay.getD (off + 3) 0).toNat := by
  simp [u32le, memRead, Nat.shiftLeft_eq]
  omega

/-- Assembling n bytes gives less than 2^(8n) (R114 a). -/
theorem memRead_lt (pay : List Byte) (off n : Nat) : memRead pay off n < 2 ^ (8 * n) := by
  induction n with
  | zero => simp [memRead]
  | succ n ih =>
    have hb := (pay.getD (off + n) 0).isLt
    rw [memRead, Nat.shiftLeft_eq, show 8 * (n + 1) = 8 * n + 8 by omega, Nat.pow_add]
    have : (pay.getD (off + n) 0).toNat * 2 ^ (8 * n) ≤ 255 * 2 ^ (8 * n) := Nat.mul_le_mul_right _ (by omega)
    omega

theorem u8_lt (pay : List Byte) (off : Nat) : u8 pay off < 256 := memRead_lt pay off 1
theorem u16le_lt (pay : List Byte) (off : Nat) : u16le pay off < 65536 := memRead_lt pay off 2
theorem u32le_lt (pay : List Byte) (off : Nat) : u32le pay off < 4294967296 := memRead_lt pay off 4
theorem u64le_lt (pay : List Byte) (off : Nat) : u64le pay off < 2 ^ 64 := memRead_lt pay off 8

/-- Bit k of a little-endian read is bit k mod 8 of byte k div 8 (R34). -/
theorem memRead_testBit (pay : List Byte) (off n k : Nat) :
    (memRead pay off n).testBit k = (decide (k < 8 * n) && (pay.getD (off + k / 8) 0).getLsbD (k % 8)) := by
  induction n with
  | zero => simp [memRead]
  | succ n ih =>
    rw [memRead, Nat.add_comm, Nat.shiftLeft_eq, Nat.mul_comm, Nat.testBit_two_pow_mul_add _ (memRead_lt pay off n)]
    by_cases h : k < 8 * n
    · have : k < 8 * (n + 1) := by omega
      simp [h, ih, this]
    · by_cases h2 : k < 8 * (n + 1)
      · have h3 : k / 8 = n := by omega
        have h4 : k - 8 * n = k % 8 := by omega
        simp only [h, h2, h3, h4, if_false, decide_true, Bool.true_and]
        rfl
      · simp only [h, h2, if_false, decide_false, Bool.false_and]
        exact Nat.testBit_lt_two_pow (Nat.lt_of_lt_of_le (pay.getD (off + n) 0).isLt
          (Nat.pow_le_pow_right (by omega) (by omega : 8 ≤ k - 8 * n)))

/-- A read within the payload does not see bytes appended behind it (R113). -/
theorem memRead_append {pay : List Byte} {off n : Nat} (ys : List Byte) (h : off + n ≤ pay.length) :
    memRead (pay ++ ys) off n = memRead pay off n := by
  induction n with
  | zero => rfl
  | succ n ih =>
    rw [memRead, memRead, ih (by omega)]
    simp [List.getElem?_append_left (show off + n < pay.length by omega)]

/-- The range of a sign-reconstructed value (R114 b). -/
theorem s16_range {v : Nat} (h : v < 65536) : -32768 ≤ s16 v ∧ s16 v ≤ 32767 := by
  unfold s16; split <;> omega

/-- A value in range is stored exactly (R18: s16). -/
theorem storeS16_toInt {v : Int} (h : -32768 ≤ v ∧ v ≤ 32767) : (storeS16 v).toInt = v := by
  rw [storeS16, BitVec.toInt_ofInt]
  exact Int.bmod_eq_of_le (by omega) (by omega)

/-- A difference in range is stored exactly (R114 c: s17). -/
theorem storeS17_toInt {v : Int} (h : -65536 ≤ v ∧ v ≤ 65535) : (storeS17 v).toInt = v := by
  rw [storeS17, BitVec.toInt_ofInt]
  exact Int.bmod_eq_of_le (by omega) (by omega)

/-- Stored reads keep their value. -/
@[simp] theorem toNat_u8 (pay : List Byte) (off : Nat) : (BitVec.ofNat 8 (u8 pay off)).toNat = u8 pay off := by
  simpa using Nat.mod_eq_of_lt (u8_lt pay off)
@[simp] theorem toNat_u16le (pay : List Byte) (off : Nat) :
    (BitVec.ofNat 16 (u16le pay off)).toNat = u16le pay off := by
  simpa using Nat.mod_eq_of_lt (u16le_lt pay off)
@[simp] theorem toNat_u32le (pay : List Byte) (off : Nat) :
    (BitVec.ofNat 32 (u32le pay off)).toNat = u32le pay off := by
  simpa using Nat.mod_eq_of_lt (u32le_lt pay off)
@[simp] theorem toNat_u64le (pay : List Byte) (off : Nat) :
    (BitVec.ofNat 64 (u64le pay off)).toNat = u64le pay off := by
  simpa using Nat.mod_eq_of_lt (u64le_lt pay off)
@[simp] theorem ofNat_u8 (pay : List Byte) (off : Nat) : BitVec.ofNat 8 (u8 pay off) = pay.getD off 0 := by
  apply BitVec.eq_of_toNat_eq; rw [toNat_u8, u8_eq]
@[simp] theorem toInt_s16 (pay : List Byte) (off : Nat) :
    (storeS16 (s16 (u16le pay off))).toInt = s16 (u16le pay off) :=
  storeS16_toInt (s16_range (u16le_lt pay off))

/-- The raw integer of a limit current (R60). -/
theorem limitCurrent_value (sg : Bool) (pay : List Byte) (off : Nat) :
    (limitCurrent sg (u16le pay off)).value = if sg then s16 (u16le pay off) else (u16le pay off : Int) := by
  cases sg
  · rw [if_neg (by simp), limitCurrent, if_neg (by simp), Raw16.value, toNat_u16le]
  · simp [limitCurrent, Raw16.value]

end Sys2Proof.Machine
end

