-- ==== Sys2Proof/Laws/Alarm.lean ====
section
/-! SUPPORT. The alarm decoder: which positions are active, in what order, and the highest severity (R150 to R152). -/

namespace Sys2Proof.Machine

theorem mem_activeBits {mask : U64} {k : Nat} : k ∈ activeBits mask ↔ k < 64 ∧ mask.getLsbD k = true := by
  simp [activeBits]

/-- The positions are strictly ascending (R150). -/
theorem activeBits_ascending (mask : U64) : (activeBits mask).Pairwise (· < ·) :=
  (List.pairwise_lt_range).filter _

theorem activeBits_length_le (mask : U64) : (activeBits mask).length ≤ 64 := by
  simpa [activeBits] using List.length_filter_le (fun k => mask.getLsbD k) (List.range 64)

/-- The highest severity is at least n exactly when some position has severity at least n, for positive n. -/
theorem le_maxSev {l : List Nat} {n : Nat} (hn : 0 < n) : n ≤ maxSev l ↔ ∃ k ∈ l, n ≤ sev k := by
  induction l with
  | nil => simp [maxSev]; omega
  | cons a tl ih =>
    have : maxSev (a :: tl) = max (sev a) (maxSev tl) := rfl
    rw [this, le_max_iff, ih]
    simp

/-- Bit k of ALARMDEC's mask (R34). -/
theorem alarmDec_mask_bit (pay : List Byte) (k : Nat) :
    (alarmDec pay).mask.getLsbD k = (decide (k < 64) && (pay.getD (k / 8) 0).getLsbD (k % 8)) := by
  rw [alarmDec, BitVec.getLsbD_ofNat, u64le, memRead_testBit]
  simp

end Sys2Proof.Machine
end

