-- ==== Sys2Proof/Laws/Codec.lean ====
section
/-! SUPPORT. The identifier codec and the envelope's id field, bit by bit (R35, R52, R87, R100, R101). -/

namespace Sys2Proof

/-- Every bit of an identifier that IDENC builds (R101, R52). -/
theorem idenc_getLsbD (f : Ident) (k : Nat) : (idenc f).getLsbD k =
    (if k < 3 then false
     else if k < 4 then f.continuation
     else if k < 12 then f.sourceAddress.getLsbD (k - 4)
     else if k < 20 then f.destinationAddress.getLsbD (k - 12)
     else if k < 28 then f.commandCode.getLsbD (k - 20)
     else if k < 29 then f.pointToPoint
     else false) := by
  obtain ⟨p, c, d, s, q⟩ := f
  by_cases hk : k < 29
  · interval_cases k <;> cases p <;> cases q <;> simp [idenc]
  · have : ¬ k < 3 ∧ ¬ k < 4 ∧ ¬ k < 12 ∧ ¬ k < 20 ∧ ¬ k < 28 := by omega
    simp only [hk, this, if_false]
    exact BitVec.getLsbD_of_ge _ _ (by omega)

/-- The fields of IDENC's identifier are the fields it was given, with P_CONT_USED (R102). -/
theorem iddec_idenc (f : Ident) (u : Bool) :
    iddec u (idenc f) = { f with continuation := u && f.continuation } := by
  obtain ⟨p, c, d, s, q⟩ := f
  have hc : (idenc ⟨p, c, d, s, q⟩).extractLsb' 20 8 = c := by
    apply BitVec.eq_of_getLsbD_eq; intro i hi
    rw [BitVec.getLsbD_extractLsb', idenc_getLsbD]
    interval_cases i <;> simp
  have hd : (idenc ⟨p, c, d, s, q⟩).extractLsb' 12 8 = d := by
    apply BitVec.eq_of_getLsbD_eq; intro i hi
    rw [BitVec.getLsbD_extractLsb', idenc_getLsbD]
    interval_cases i <;> simp
  have hs : (idenc ⟨p, c, d, s, q⟩).extractLsb' 4 8 = s := by
    apply BitVec.eq_of_getLsbD_eq; intro i hi
    rw [BitVec.getLsbD_extractLsb', idenc_getLsbD]
    interval_cases i <;> simp
  have h28 : (idenc ⟨p, c, d, s, q⟩).getLsbD 28 = p := by rw [idenc_getLsbD]; rfl
  have h3 : (idenc ⟨p, c, d, s, q⟩).getLsbD 3 = q := by rw [idenc_getLsbD]; rfl
  simp only [iddec, hc, hd, hs, h28, h3]

/-- Every bit of the identifier of a command row's frame (R52). -/
theorem FrameArgs.id_getLsbD (a : FrameArgs) (c : Byte) (k : Nat) : (a.id c).getLsbD k =
    if k < 3 then a.low.getLsbD k else (idenc ⟨a.ptp, c, a.dst, a.src, a.cont⟩).getLsbD k := by
  rw [FrameArgs.id, BitVec.getLsbD_or, BitVec.getLsbD_setWidth]
  by_cases h : k < 3
  · have : k < 29 := by omega
    simp only [idenc_getLsbD, h, this, if_true, Bool.false_or, decide_true, Bool.true_and]
  · simp [h, BitVec.getLsbD_of_ge a.low k (by omega)]

/-- A command row's frame has that row's code and its operands. -/
theorem FrameArgs.frame_code (a : FrameArgs) (c : Byte) : (a.frame c).code = c := by
  apply BitVec.eq_of_getLsbD_eq; intro i hi
  rw [Frame.code, FrameArgs.frame, BitVec.getLsbD_extractLsb', FrameArgs.id_getLsbD, idenc_getLsbD]
  interval_cases i <;> simp

theorem FrameArgs.frame_args (a : FrameArgs) (c : Byte) : (a.frame c).args = a := by
  obtain ⟨t, p, d, s, k, l, pay⟩ := a
  have hd : (FrameArgs.id ⟨t, p, d, s, k, l, pay⟩ c).extractLsb' 12 8 = d := by
    apply BitVec.eq_of_getLsbD_eq; intro i hi
    rw [BitVec.getLsbD_extractLsb', FrameArgs.id_getLsbD, idenc_getLsbD]
    interval_cases i <;> simp
  have hs : (FrameArgs.id ⟨t, p, d, s, k, l, pay⟩ c).extractLsb' 4 8 = s := by
    apply BitVec.eq_of_getLsbD_eq; intro i hi
    rw [BitVec.getLsbD_extractLsb', FrameArgs.id_getLsbD, idenc_getLsbD]
    interval_cases i <;> simp
  have hl : (FrameArgs.id ⟨t, p, d, s, k, l, pay⟩ c).extractLsb' 0 3 = l := by
    apply BitVec.eq_of_getLsbD_eq; intro i hi
    rw [BitVec.getLsbD_extractLsb', FrameArgs.id_getLsbD]
    interval_cases i <;> simp
  have h28 : (FrameArgs.id ⟨t, p, d, s, k, l, pay⟩ c).getLsbD 28 = p := by
    rw [FrameArgs.id_getLsbD, idenc_getLsbD]; rfl
  have h3 : (FrameArgs.id ⟨t, p, d, s, k, l, pay⟩ c).getLsbD 3 = k := by
    rw [FrameArgs.id_getLsbD, idenc_getLsbD]; rfl
  simp only [Frame.args, FrameArgs.frame, hd, hs, hl, h28, h3]

/-- The identifier fields of a command row's frame (R100 on R52's places). -/
theorem FrameArgs.iddec_id (a : FrameArgs) (c : Byte) (u : Bool) :
    iddec u (a.id c) = ⟨a.ptp, c, a.dst, a.src, u && a.cont⟩ := by
  have hc := FrameArgs.frame_code a c
  have ha := FrameArgs.frame_args a c
  simp only [Frame.code, Frame.args, FrameArgs.frame] at hc ha
  have := congrArg FrameArgs.ptp ha
  have h2 := congrArg FrameArgs.dst ha
  have h3 := congrArg FrameArgs.src ha
  have h4 := congrArg FrameArgs.cont ha
  simp_all [iddec]

/-- The frame with a given code and operands is the frame they came from, when its length field is the payload's length. -/
theorem Frame.args_frame {f : Frame} (h : f.len = f.payload.length) : f.args.frame f.code = f := by
  obtain ⟨t, id, len, pay⟩ := f
  have hid : (Frame.args ⟨t, id, len, pay⟩).id (Frame.code ⟨t, id, len, pay⟩) = id := by
    apply BitVec.eq_of_getLsbD_eq; intro i hi
    rw [FrameArgs.id_getLsbD, idenc_getLsbD]
    simp only [Frame.args, Frame.code]
    interval_cases i <;> simp
  simp only [FrameArgs.frame, hid]
  simp_all [Frame.args]

/-- The id field that ENVENC writes is the one MKFRAME reads, in either byte order (R35). -/
theorem id32_idBytes (o : IdOrder) (w : BitVec 32) (s t : Byte) (tl : List Byte) :
    id32 o (s :: t :: (idBytes o w ++ tl)) = w := by
  apply BitVec.eq_of_getLsbD_eq; intro i hi
  cases o <;> simp only [id32, idBytes, List.cons_append, List.nil_append, List.getD_cons_succ, List.getD_cons_zero] <;>
    interval_cases i <;> simp

end Sys2Proof
end

