-- ==== Sys2Proof/Laws/Framer.lean ====
section
/-! SUPPORT. The framer: what the tests at the head of a byte list say, SCAN's equations without the bound on passes, one induction over a scan, and how a scan of a longer list goes on where the shorter one stopped (R80, R84). -/

namespace Sys2Proof

/-- When the framer's first test rejects: a byte that is not SYNC, an illegal length byte, or a wrong checksum (R178). -/
theorem headOf_reject {chk : List Byte → Byte} {bs : List Byte} {e : Event} (h : headOf chk bs = .reject e) :
    ∃ b tl, bs = b :: tl ∧
      ((b ≠ SYNC ∧ e = .resync b) ∨
       (b = SYNC ∧ HDR_LEN ≤ bs.length ∧ MAX_LEN < (bs.getD 6 0).toNat ∧ e = .lenError (bs.getD 6 0)) ∨
       (b = SYNC ∧ (bs.getD 6 0).toNat ≤ MAX_LEN ∧ 8 + (bs.getD 6 0).toNat ≤ bs.length ∧
        bs.getD (7 + (bs.getD 6 0).toNat) 0 ≠ chk (tl.take (6 + (bs.getD 6 0).toNat)) ∧ e = .checksumMismatch)) := by
  cases bs with
  | nil => simp [headOf] at h
  | cons b tl =>
    refine ⟨b, tl, rfl, ?_⟩
    simp only [headOf] at h
    split at h
    · rename_i h1
      simp only [Head.reject.injEq] at h
      exact .inl ⟨h1, h.symm⟩
    · rename_i h1
      have h1 : b = SYNC := by simpa using h1
      split at h
      · cases h
      · rename_i h2
        split at h
        · rename_i h3
          simp only [Head.reject.injEq] at h
          exact .inr (.inl ⟨h1, by omega, h3, h.symm⟩)
        · rename_i h3
          split at h
          · cases h
          · rename_i h4
            split at h
            · rename_i h5
              simp only [Head.reject.injEq] at h
              exact .inr (.inr ⟨h1, by omega, by omega, h5, h.symm⟩)
            · cases h

/-- When the framer finds a valid envelope (R178, R50). -/
theorem headOf_envelope {chk : List Byte → Byte} {bs : List Byte} {len : Nat} (h : headOf chk bs = .envelope len) :
    ∃ tl, bs = SYNC :: tl ∧ len = (bs.getD 6 0).toNat ∧ len ≤ MAX_LEN ∧ 8 + len ≤ bs.length ∧
      bs.getD (7 + len) 0 = chk (tl.take (6 + len)) := by
  cases bs with
  | nil => simp [headOf] at h
  | cons b tl =>
    simp only [headOf] at h
    split at h
    · cases h
    · rename_i h1
      have h1 : b = SYNC := by simpa using h1
      split at h
      · cases h
      · split at h
        · cases h
        · rename_i h3
          split at h
          · cases h
          · rename_i h4
            split at h
            · cases h
            · rename_i h5
              simp only [Head.envelope.injEq] at h
              subst h
              subst h1
              exact ⟨tl, rfl, rfl, by omega, by omega, by simpa using h5⟩

/-- A list with these five properties starts with a valid envelope. -/
theorem headOf_eq_envelope {chk : List Byte → Byte} {tl : List Byte} {len : Nat}
    (hl : ((SYNC :: tl).getD 6 0).toNat = len) (h8 : len ≤ MAX_LEN) (hn : 8 + len ≤ (SYNC :: tl).length)
    (hc : (SYNC :: tl).getD (7 + len) 0 = chk (tl.take (6 + len))) :
    headOf chk (SYNC :: tl) = .envelope len := by
  have h7 : ¬ (SYNC :: tl).length < HDR_LEN := by simp only [HDR_LEN]; omega
  simp only [headOf, hl, hc, h7, ne_eq, not_true, if_false]
  rw [if_neg (by omega), if_neg (by omega)]

/-- The framer waits exactly on the buffers R11 allows between steps. -/
theorem headOf_wait_iff {chk : List Byte → Byte} {bs : List Byte} :
    headOf chk bs = .wait ↔ Machine.bufOk bs = true := by
  cases bs with
  | nil => simp [headOf, Machine.bufOk]
  | cons b tl =>
    simp only [headOf, Machine.bufOk, MAX_LEN, HDR_LEN, Bool.and_eq_true, Bool.or_eq_true, decide_eq_true_eq, beq_iff_eq]
    generalize (b :: tl).length = n
    generalize ((b :: tl).getD 6 0) = l
    by_cases h1 : b = SYNC
    · rw [if_neg (by simp [h1])]
      by_cases h2 : n < 7
      · simp [h1, h2]
      · rw [if_neg h2]
        by_cases h3 : 8 < l.toNat
        · rw [if_pos h3]
          constructor
          · intro h; cases h
          · rintro ⟨-, h | h⟩ <;> omega
        · rw [if_neg h3]
          by_cases h4 : n < 8 + l.toNat
          · rw [if_pos h4]
            exact ⟨fun _ => ⟨h1, .inr ⟨by omega, h4⟩⟩, fun _ => rfl⟩
          · rw [if_neg h4]
            constructor
            · intro h
              split at h <;> cases h
            · rintro ⟨-, h | h⟩ <;> omega
    · simp [h1]

/-- More bytes do not change a decision already taken (R84: "each decision looks only at bytes already in the buffer"). -/
theorem headOf_append {chk : List Byte → Byte} {bs : List Byte} (ys : List Byte) (h : headOf chk bs ≠ .wait) :
    headOf chk (bs ++ ys) = headOf chk bs := by
  cases bs with
  | nil => simp [headOf] at h
  | cons b tl =>
    have e6 : 7 ≤ (b :: tl).length → (b :: (tl ++ ys)).getD 6 0 = (b :: tl).getD 6 0 := by
      intro h7
      simp only [List.length_cons] at h7
      simp [List.getElem?_append_left (show 5 < tl.length by omega)]
    simp only [List.cons_append, headOf] at h ⊢
    by_cases h1 : b ≠ SYNC
    · simp [h1]
    · simp only [h1, if_false] at h ⊢
      by_cases h2 : (b :: tl).length < HDR_LEN
      · rw [if_pos h2] at h
        exact absurd rfl h
      · have h2' : ¬ (b :: (tl ++ ys)).length < HDR_LEN := by
          simp only [List.length_cons, List.length_append] at h2 ⊢; omega
        simp only [h2, h2', if_false] at h ⊢
        rw [e6 (by simpa [HDR_LEN] using h2)]
        by_cases h3 : MAX_LEN < ((b :: tl).getD 6 0).toNat
        · simp only [h3, if_true]
        · simp only [h3, if_false] at h ⊢
          generalize hL : ((b :: tl).getD 6 0).toNat = L at *
          by_cases h4 : (b :: tl).length < 8 + L
          · rw [if_pos h4] at h
            exact absurd rfl h
          · have h4' : ¬ (b :: (tl ++ ys)).length < 8 + L := by
              simp only [List.length_cons, List.length_append] at h4 ⊢; omega
            simp only [h4, h4', if_false]
            simp only [List.length_cons] at h4
            have e7 : (b :: (tl ++ ys)).getD (7 + L) 0 = (b :: tl).getD (7 + L) 0 := by
              rw [show 7 + L = (6 + L) + 1 by omega]
              simp [List.getElem?_append_left (show 6 + L < tl.length by omega)]
            have et : (tl ++ ys).take (6 + L) = tl.take (6 + L) :=
              List.take_append_of_le_length (by omega)
            rw [e7, et]

/-- A valid envelope is valid by itself. -/
theorem headOf_take {chk : List Byte → Byte} {bs : List Byte} {len : Nat} (h : headOf chk bs = .envelope len) :
    headOf chk (bs.take (8 + len)) = .envelope len := by
  obtain ⟨tl, rfl, hl, h8, hn, hc⟩ := headOf_envelope h
  have ht : (SYNC :: tl).take (8 + len) = SYNC :: tl.take (7 + len) := by
    rw [show 8 + len = (7 + len) + 1 by omega, List.take_succ_cons]
  simp only [List.length_cons] at hn
  have hg : ∀ i < 7 + len, (SYNC :: tl.take (7 + len)).getD (i + 1) 0 = (SYNC :: tl).getD (i + 1) 0 := by
    intro i hi
    simp [hi]
  rw [ht]
  refine headOf_eq_envelope ?_ h8 ?_ ?_
  · rw [hg 5 (by omega), ← hl]
  · simp only [List.length_cons, List.length_take]; omega
  · have h7 := hg (6 + len) (by omega)
    rw [show 6 + len + 1 = 7 + len by omega] at h7
    rw [List.take_take, show min (6 + len) (7 + len) = 6 + len by omega, h7, hc]

namespace Machine

/-- Every pass that does not stop removes a byte, so more passes than bytes give the same (R91). -/
theorem drain_enough (cfg : Config) : ∀ (n : Nat) (bs : List Byte), bs.length ≤ n → drain cfg n bs = scan cfg bs := by
  suffices ∀ (k n m : Nat) (bs : List Byte), bs.length ≤ k → bs.length ≤ n → bs.length ≤ m →
      drain cfg n bs = drain cfg m bs from
    fun n bs h => this bs.length n bs.length bs le_rfl h le_rfl
  intro k
  induction k with
  | zero =>
    intro n m bs hk _ _
    have : bs = [] := List.length_eq_zero_iff.mp (by omega)
    subst this
    cases n <;> cases m <;> simp [drain, headOf]
  | succ k ih =>
    intro n m bs hk hn hm
    cases bs with
    | nil => cases n <;> cases m <;> simp [drain, headOf]
    | cons b tl =>
      simp only [List.length_cons] at hk hn hm
      obtain ⟨n, rfl⟩ : ∃ n', n = n' + 1 := ⟨n - 1, by omega⟩
      obtain ⟨m, rfl⟩ : ∃ m', m = m' + 1 := ⟨m - 1, by omega⟩
      simp only [drain]
      cases hh : headOf cfg.chk (b :: tl) with
      | wait => rfl
      | reject e => simp only [List.tail_cons]; rw [ih n m tl (by omega) (by omega) (by omega)]
      | envelope len =>
        have hd : ((b :: tl).drop (8 + len)).length ≤ tl.length := by simp; omega
        dsimp only
        rw [ih n m _ (by omega : ((b :: tl).drop (8 + len)).length ≤ k) (by omega) (by omega)]

/-- SCAN stops where the framer waits (R84). -/
theorem scan_wait {cfg : Config} {bs : List Byte} (h : headOf cfg.chk bs = .wait) : scan cfg bs = ([], bs) := by
  cases bs with
  | nil => rfl
  | cons b tl => simp [scan, drain, h]

/-- A rejected head costs one byte and gives its event (R84, R179). -/
theorem scan_reject {cfg : Config} {b : Byte} {tl : List Byte} {e : Event}
    (h : headOf cfg.chk (b :: tl) = .reject e) :
    scan cfg (b :: tl) = (.ev e :: (scan cfg tl).1, (scan cfg tl).2) := by
  rw [scan, List.length_cons, drain, h]
  simp only [List.tail_cons, conditionTaken, drain_enough cfg _ tl le_rfl]

/-- A valid envelope gives its frame and is removed (R84). -/
theorem scan_envelope {cfg : Config} {bs : List Byte} {len : Nat} (h : headOf cfg.chk bs = .envelope len) :
    scan cfg bs = (envelopeItem cfg (bs.take (8 + len)) :: (scan cfg (bs.drop (8 + len))).1,
      (scan cfg (bs.drop (8 + len))).2) := by
  obtain ⟨tl, rfl, -, -, -, -⟩ := headOf_envelope h
  rw [scan, List.length_cons, drain, h]
  simp only [itemEmitted]
  rw [drain_enough cfg _ _ (by simp; omega)]

/-- Induction along a scan: what holds where it waits, and is carried over a rejected byte and over an envelope,
holds of every byte list. -/
theorem scan_induct (cfg : Config) {P : List Byte → Prop}
    (wait : ∀ bs, headOf cfg.chk bs = .wait → P bs)
    (reject : ∀ b tl e, headOf cfg.chk (b :: tl) = .reject e → P tl → P (b :: tl))
    (envelope : ∀ bs len, headOf cfg.chk bs = .envelope len → P (bs.drop (8 + len)) → P bs) (bs : List Byte) : P bs := by
  suffices ∀ n (bs : List Byte), bs.length ≤ n → P bs from this bs.length bs le_rfl
  intro n
  induction n with
  | zero =>
    intro bs h
    have : bs = [] := List.length_eq_zero_iff.mp (by omega)
    subst this
    exact wait [] rfl
  | succ n ih =>
    intro bs h
    cases hh : headOf cfg.chk bs with
    | wait => exact wait bs hh
    | reject e =>
      obtain ⟨b, tl, rfl, -⟩ := headOf_reject hh
      exact reject b tl e hh (ih tl (by simpa using h))
    | envelope len => exact envelope bs len hh (ih _ (by simp; omega))

/-- What SCAN leaves satisfies the buffer invariant (R11). -/
theorem scan_rest_ok (cfg : Config) (bs : List Byte) : bufOk (scan cfg bs).2 = true := by
  induction bs using scan_induct cfg with
  | wait bs h => rw [scan_wait h]; exact headOf_wait_iff.mp h
  | reject b tl e h ih => rw [scan_reject h]; exact ih
  | envelope bs len h ih => rw [scan_envelope h]; exact ih

/-- A scan of a longer list gives the shorter list's items and goes on from what it left (R84, R40). -/
theorem scan_append (cfg : Config) (ys bs : List Byte) :
    scan cfg (bs ++ ys) = ((scan cfg bs).1 ++ (scan cfg ((scan cfg bs).2 ++ ys)).1, (scan cfg ((scan cfg bs).2 ++ ys)).2) := by
  induction bs using scan_induct cfg with
  | wait bs h => simp [scan_wait h]
  | reject b tl e h ih =>
    have h' : headOf cfg.chk (b :: (tl ++ ys)) = .reject e := by
      rw [← List.cons_append, headOf_append ys (by simp [h]), h]
    rw [List.cons_append, scan_reject h', scan_reject h, ih]
    simp
  | envelope bs len h ih =>
    obtain ⟨tl, -, -, -, hn, -⟩ := headOf_envelope h
    have h' : headOf cfg.chk (bs ++ ys) = .envelope len := by
      rw [headOf_append ys (by simp [h]), h]
    rw [scan_envelope h', scan_envelope h, List.drop_append_of_le_length hn, List.take_append_of_le_length hn, ih]
    simp

/-- A buffer that satisfies the invariant has at most 15 bytes (R10). -/
theorem bufOk_length {buf : List Byte} (h : bufOk buf = true) : buf.length ≤ 15 := by
  cases buf with
  | nil => simp
  | cons b tl =>
    simp only [bufOk, HDR_LEN, MAX_LEN, Bool.and_eq_true, Bool.or_eq_true, decide_eq_true_eq, beq_iff_eq] at h
    obtain ⟨-, h | h⟩ := h <;> omega

end Machine
end Sys2Proof
end

