-- ==== Sys2Proof/Laws/Commands.lean ====
section
/-! SUPPORT. DECODE and the command rows: one executes as the other decodes, and a frame decoded from an envelope executes to the framer's own item (R16, R42, R80, R111). -/

namespace Sys2Proof

/-- The row of a code, case by case: a property of the eleven named rows and of RAW holds of what R53's map selects. -/
theorem instrOfCode_cases {P : Byte → Instr → Prop} (c : Byte) (a : FrameArgs)
    (limits : P 0x80 (.limits a)) (socsoh : P 0x81 (.socsoh a)) (packvi : P 0x82 (.packvi a))
    (cellv : P 0x83 (.cellv a)) (cellt : P 0x84 (.cellt a)) (opstat : P 0x85 (.opstat a))
    (cycles : P 0x86 (.cycles a)) (energy : P 0x87 (.energy a)) (text : P 0x8F (.text a))
    (alarm : P 0xC0 (.alarm a)) (opaqueCode : P 0xD0 (.opaqueCode a))
    (raw : c ∉ namedCodes → P c (.raw c a)) : P c (instrOfCode c a) := by
  by_cases h80 : c = 0x80
  · subst h80; exact limits
  by_cases h81 : c = 0x81
  · subst h81; exact socsoh
  by_cases h82 : c = 0x82
  · subst h82; exact packvi
  by_cases h83 : c = 0x83
  · subst h83; exact cellv
  by_cases h84 : c = 0x84
  · subst h84; exact cellt
  by_cases h85 : c = 0x85
  · subst h85; exact opstat
  by_cases h86 : c = 0x86
  · subst h86; exact cycles
  by_cases h87 : c = 0x87
  · subst h87; exact energy
  by_cases h8F : c = 0x8F
  · subst h8F; exact text
  by_cases hC0 : c = 0xC0
  · subst hC0; exact alarm
  by_cases hD0 : c = 0xD0
  · subst hD0; exact opaqueCode
  have hc : c ∉ namedCodes := by simp only [namedCodes, List.mem_cons, List.not_mem_nil, h80, h81, h82, h83, h84, h85, h86, h87, h8F, hC0, hD0, or_self, not_false_iff]
  have hi : instrOfCode c a = .raw c a := by simp only [instrOfCode, h80, h81, h82, h83, h84, h85, h86, h87, h8F, hC0, hD0, if_false]
  rw [hi]
  exact raw hc

/-- A row of R53's map carries its code and operands. -/
theorem carried_instrOfCode (c : Byte) (a : FrameArgs) : (instrOfCode c a).carried = some (c, a) :=
  instrOfCode_cases (P := fun c i => i.carried = some (c, a)) c a rfl rfl rfl rfl rfl rfl rfl rfl rfl rfl rfl
    fun _ => rfl

/-- A well-formed command row is the row of its code. -/
theorem instrOfCode_carried {i : Instr} {c : Byte} {a : FrameArgs} (hw : i.wellFormed = true)
    (h : i.carried = some (c, a)) : instrOfCode c a = i := by
  cases i <;> simp only [Instr.carried, Option.some.injEq, Prod.mk.injEq, reduceCtorEq] at h
  all_goals obtain ⟨rfl, rfl⟩ := h
  case raw c f =>
    simp [Instr.wellFormed, namedCodes] at hw
    simp [instrOfCode, hw]
  all_goals rfl

/-- A row of R53's map with at most eight payload bytes is well-formed. -/
theorem instrOfCode_wellFormed (c : Byte) {a : FrameArgs} (h : a.payload.length ≤ MAX_LEN) :
    (instrOfCode c a).wellFormed = true := by
  have hp : payloadOk a.payload = true := by simpa [payloadOk] using h
  refine instrOfCode_cases (P := fun _ i => i.wellFormed = true) c a hp hp hp hp hp hp hp hp hp hp hp fun hc => ?_
  simpa [Instr.wellFormed, hp] using hc

/-- What MKFRAME reads from a valid envelope has the payload length its length byte says (R81). -/
theorem mkFrame_len {chk : List Byte → Byte} {bs : List Byte} {len : Nat} (h : headOf chk bs = .envelope len)
    (o : IdOrder) : (mkFrame o (bs.take (8 + len))).len = len ∧ (mkFrame o (bs.take (8 + len))).payload.length = len := by
  obtain ⟨tl, rfl, hl, h8, hn, hc⟩ := headOf_envelope h
  have h6 : (((SYNC :: tl).take (8 + len)).getD 6 0).toNat = len := by
    rw [hl, show 8 + ((SYNC :: tl).getD 6 0).toNat = (7 + ((SYNC :: tl).getD 6 0).toNat) + 1 by omega, List.take_succ_cons]
    have : 5 < 7 + ((SYNC :: tl).getD 6 0).toNat := by omega
    simp only [List.getD_eq_getElem?_getD, List.getElem?_cons_succ, List.getElem?_take] at this ⊢
    rw [if_pos this]
  refine ⟨h6, ?_⟩
  simp only [mkFrame, h6, HDR_LEN, List.length_take, List.length_drop]
  simp only [List.length_cons] at hn ⊢
  omega

namespace Machine

/-- Executing a command row delivers its frame with DECODE's result (R16, R111). -/
theorem exec_instrOfCode (c : Byte) (a : FrameArgs) (s : State) :
    exec (instrOfCode c a) s = deliver c a (decodePayload s.cfg c a.payload) s := by
  refine instrOfCode_cases (P := fun c i => exec i s = deliver c a (decodePayload s.cfg c a.payload) s) c a
    rfl rfl rfl rfl rfl rfl rfl rfl ?_ rfl ?_ fun hc => ?_
  · rw [decodePayload, requireLen_enough (Nat.zero_le _)]; rfl
  · rw [decodePayload, requireLen_enough (Nat.zero_le _)]; rfl
  · have hb : decodeBody s.cfg c a.payload = .raw c a.payload := by
      simp [namedCodes] at hc
      simp [decodeBody, hc]
    simp only [exec, execRaw]
    rw [if_neg (by simpa using hc), decodePayload, requireLen_enough (by simp [reqLen_unknown hc]), hb]

/-- A frame decoded from a valid envelope executes to the framer's item for that envelope (R80, R42). -/
theorem exec_frame_instr {s : State} {bs : List Byte} {len : Nat} (h : headOf s.cfg.chk bs = .envelope len) :
    exec (mkFrame s.cfg.idOrder (bs.take (8 + len))).instr s =
      .next (s.returns (.items [envelopeItem s.cfg (bs.take (8 + len))])) := by
  obtain ⟨h1, h2⟩ := mkFrame_len h s.cfg.idOrder
  obtain ⟨-, -, -, h8, -⟩ := headOf_envelope h
  rw [Frame.instr, exec_instrOfCode, deliver_pos (by rw [Frame.args, h2]; exact h8),
    Frame.args_frame (by omega)]
  rfl

/-- What decoding a byte list says about scanning it (R84). -/
theorem scan_decode {s : State} {xs rest : List Byte} {i : Instr} (h : decode s.cfg xs = .instr i rest) :
    ∃ it, exec i s = .next (s.returns (.items [it])) ∧ scan s.cfg xs = (it :: (scan s.cfg rest).1, (scan s.cfg rest).2) := by
  unfold decode at h
  split at h
  · cases h
  · cases h
  · rename_i len hh
    simp only [Decoded.instr.injEq] at h
    obtain ⟨rfl, rfl⟩ := h
    exact ⟨_, exec_frame_instr hh, scan_envelope hh⟩

/-- A PUSH in a run that has begun: the scan of the buffer with the byte behind it (R80). -/
theorem exec_push {s : State} (h : s.begun = true) (b : Byte) :
    exec (.push b) s = .next { s with
      buf := (scan s.cfg (s.buf ++ [b])).2, out := .items (scan s.cfg (s.buf ++ [b])).1 } := by
  simp only [exec, execPush]
  rw [afterReset_pos h]
  rfl

/-- A waiting buffer is its own scan (R11, R84). -/
theorem scan_of_bufOk {cfg : Config} {buf : List Byte} (h : bufOk buf = true) : scan cfg buf = ([], buf) :=
  scan_wait (headOf_wait_iff.mpr h)

/-- The codes with a required length (R59). -/
theorem reqLen_pos {c : Byte} (h : 0 < reqLen c) :
    c = 0x80 ∨ c = 0x81 ∨ c = 0x82 ∨ c = 0x83 ∨ c = 0x84 ∨ c = 0x85 ∨ c = 0x86 ∨ c = 0x87 ∨ c = 0xC0 := by
  unfold reqLen at h
  repeat' split at h
  all_goals first
    | omega
    | simp_all

/-- An alarm result of DECODE is ALARMDEC's (R111). -/
theorem decodePayload_alarm {cfg : Config} {c : Byte} {pay : List Byte} {x : AlarmSet}
    (h : decodePayload cfg c pay = .alarm x) : x = alarmDec pay := by
  rw [decodePayload, requireLen] at h
  split at h
  · cases h
  unfold decodeBody at h
  generalize decLimits cfg.limitISigned pay = b0, decSocSoh pay = b1, decPackVI pay = b2, decCellV pay = b3,
    decCellT pay = b4, decOpStatus cfg.flagChg cfg.flagDis cfg.flagHardDis pay = b5, decCycles pay = b6,
    decEnergy pay = b7, decText pay = b8, alarmDec pay = b9 at h ⊢
  repeat' split at h
  all_goals cases h
  rfl

/-- DECODE reads nothing behind the required length (R113). -/
theorem decodeBody_append {cfg : Config} {c : Byte} {pay : List Byte} (ys : List Byte) (hpos : 0 < reqLen c)
    (h : reqLen c ≤ pay.length) : decodeBody cfg c (pay ++ ys) = decodeBody cfg c pay := by
  have hm : ∀ off n, off + n ≤ reqLen c → memRead (pay ++ ys) off n = memRead pay off n :=
    fun off n hn => memRead_append ys (by omega)
  obtain rfl | rfl | rfl | rfl | rfl | rfl | rfl | rfl | rfl := reqLen_pos hpos
  · show Result.limits _ = Result.limits _
    simp (disch := decide) only [decLimits, u16le, hm]
  · show Result.socSoh _ = Result.socSoh _
    simp (disch := decide) only [decSocSoh, u16le, hm]
  · show Result.packVI _ = Result.packVI _
    simp (disch := decide) only [decPackVI, u16le, hm]
  · show Result.cellV _ = Result.cellV _
    simp (disch := decide) only [decCellV, u16le, u8, hm]
  · show Result.cellT _ = Result.cellT _
    simp (disch := decide) only [decCellT, u16le, u8, hm]
  · show Result.opStatus _ = Result.opStatus _
    simp (disch := decide) only [decOpStatus, u8, hm]
  · show Result.cycles _ = Result.cycles _
    simp (disch := decide) only [decCycles, u16le, hm]
  · show Result.energy _ = Result.energy _
    simp (disch := decide) only [decEnergy, u32le, hm]
  · show Result.alarm _ = Result.alarm _
    simp (disch := decide) only [alarmDec, u64le, hm]

end Machine
end Sys2Proof
end

