-- ==== Sys2Proof/Laws/PerInstr.lean ====
section
/-! SUPPORT. The family RowSelected: the identifier of a well-formed command row selects that row of the opcode table, and no other (R53). -/

namespace Sys2Proof.Laws

/-- The row of a command code (R53: mask 0x0FF00000, match `c << 20`). -/
def rowFor (p : Byte × String) : OpcodeRow := ⟨p.2, 0x0FF00000, (p.1.setWidth 29 : BitVec 29) <<< 20⟩

/-- The eleven named codes with their mnemonics (R53). -/
def rowCodes : List (Byte × String) :=
  [(0x80, "LIMITS"), (0x81, "SOCSOH"), (0x82, "PACKVI"), (0x83, "CELLV"), (0x84, "CELLT"), (0x85, "OPSTAT"),
   (0x86, "CYCLES"), (0x87, "ENERGY"), (0x8F, "TEXT"), (0xC0, "ALARM"), (0xD0, "OPAQUE")]

/-- The opcode table's rows are the rows of the named codes. -/
theorem opcodeRows_eq : opcodeRows = rowCodes.map rowFor := by decide

/-- The command code alone decides which row an identifier matches (R53). -/
theorem matches_iff (id : CanId) (p : Byte × String) :
    (rowFor p).matches id = (id.extractLsb' 20 8 == p.1) := by
  obtain ⟨c, m⟩ := p
  rw [Bool.eq_iff_iff]
  simp only [rowFor, OpcodeRow.matches, beq_iff_eq]
  constructor
  · intro h
    apply BitVec.eq_of_getLsbD_eq; intro i hi
    have := congrArg (fun x => BitVec.getLsbD x (20 + i)) h
    interval_cases i <;> simpa [BitVec.getLsbD_extractLsb'] using this
  · intro h
    apply BitVec.eq_of_getLsbD_eq; intro i hi
    have hb : ∀ j < 8, id.getLsbD (20 + j) = c.getLsbD j := by
      intro j hj
      rw [← h, BitVec.getLsbD_extractLsb']
      simp [hj]
    by_cases h20 : i < 20
    · interval_cases i <;> simp
    · by_cases h28 : i < 28
      · have := hb (i - 20) (by omega)
        interval_cases i <;> simpa using this
      · interval_cases i; simp

namespace RowSelected

/-- The identifier of a well-formed command row selects the row with the instruction's mnemonic (R53). -/
def Statement (i : Instr) : Prop :=
  i.wellFormed = true → ∀ c a, i.carried = some (c, a) → (rowOf (a.id c)).mnemonic = i.mnemonic

/-- What an identifier with a given code selects. -/
theorem rowOf_code {c : Byte} {id : CanId} (h : id.extractLsb' 20 8 = c) :
    rowOf id = ((rowCodes.find? fun p => c == p.1).map rowFor).getD fallbackRow := by
  have hm : (fun p => (rowFor p).matches id) = fun p : Byte × String => c == p.1 := by
    funext p; rw [matches_iff, h]
  rw [rowOf, opcodeRows_eq, List.find?_map, ← hm]
  rfl

/-- The code of a command row's identifier. -/
theorem id_code (a : FrameArgs) (c : Byte) : (a.id c).extractLsb' 20 8 = c := FrameArgs.frame_code a c

/-- A command row of a named code. -/
theorem named {i : Instr} {c : Byte} {a : FrameArgs} (h : i.carried = some (c, a))
    (hr : ∀ id : CanId, id.extractLsb' 20 8 = c → (rowOf id).mnemonic = i.mnemonic) : Statement i := by
  intro _ c' a' h'
  rw [h] at h'
  cases h'
  exact hr _ (id_code a c)

/-- An operation without an encoding. -/
theorem unencoded {i : Instr} (h : i.carried = none) : Statement i := by
  intro _ c a h'
  rw [h] at h'
  cases h'

theorem limits (f : FrameArgs) : Statement (.limits f) := named rfl fun _ h => by rw [rowOf_code h]; rfl
theorem socsoh (f : FrameArgs) : Statement (.socsoh f) := named rfl fun _ h => by rw [rowOf_code h]; rfl
theorem packvi (f : FrameArgs) : Statement (.packvi f) := named rfl fun _ h => by rw [rowOf_code h]; rfl
theorem cellv (f : FrameArgs) : Statement (.cellv f) := named rfl fun _ h => by rw [rowOf_code h]; rfl
theorem cellt (f : FrameArgs) : Statement (.cellt f) := named rfl fun _ h => by rw [rowOf_code h]; rfl
theorem opstat (f : FrameArgs) : Statement (.opstat f) := named rfl fun _ h => by rw [rowOf_code h]; rfl
theorem cycles (f : FrameArgs) : Statement (.cycles f) := named rfl fun _ h => by rw [rowOf_code h]; rfl
theorem energy (f : FrameArgs) : Statement (.energy f) := named rfl fun _ h => by rw [rowOf_code h]; rfl
theorem text (f : FrameArgs) : Statement (.text f) := named rfl fun _ h => by rw [rowOf_code h]; rfl
theorem alarm (f : FrameArgs) : Statement (.alarm f) := named rfl fun _ h => by rw [rowOf_code h]; rfl
theorem opaqueCode (f : FrameArgs) : Statement (.opaqueCode f) := named rfl fun _ h => by rw [rowOf_code h]; rfl
theorem raw (code : Byte) (f : FrameArgs) : Statement (.raw code f) := by
  intro hw c a h
  cases h
  rw [rowOf_code (id_code f code)]
  simp [Instr.wellFormed, namedCodes] at hw
  simp [rowCodes, hw, fallbackRow, Instr.mnemonic]
theorem push (b : Byte) : Statement (.push b) := unencoded rfl
theorem reset : Statement .reset := unencoded rfl
theorem flush : Statement .flush := unencoded rfl
theorem envenc (t : Option Byte) (id : Nat) (payload : List Byte) : Statement (.envenc t id payload) := unencoded rfl
theorem iddec (id : Nat) : Statement (.iddec id) := unencoded rfl
theorem idenc (ptp : Bool) (code dst src : Nat) (cont : Bool) : Statement (.idenc ptp code dst src cont) :=
  unencoded rfl
theorem decode (c : Byte) (pay : List Byte) : Statement (.decode c pay) := unencoded rfl
theorem alarmdec (pay : List Byte) : Statement (.alarmdec pay) := unencoded rfl
theorem mkframe (e : List Byte) : Statement (.mkframe e) := unencoded rfl
theorem scan (xs : List Byte) : Statement (.scan xs) := unencoded rfl

end RowSelected
end Sys2Proof.Laws
end

