-- ==== Sys2Proof/Laws/Ports.lean ====
section
/-! SUPPORT. The output ports (R21): what each shows of a step's item list, with a frame and without one. -/

namespace Sys2Proof.Machine

/-- A cycle performs the operation its inputs ask for, and nothing stays pending (R21). -/
theorem portStep_some {p : PortIn} {i : Instr} (h : p.operation = some i) (s : State) :
    portStep s p = exec i { s with pending := [] } := by
  rw [portStep, h]
  exact step_pending rfl

/-- A cycle without a request only clears the output (R21). -/
theorem portStep_none {p : PortIn} (h : p.operation = none) (s : State) :
    portStep s p = .next { s with pending := [], out := .items [] } := by
  rw [portStep, h]
  exact step_idle rfl

/-- A frame of an item list stands in it as an item. -/
theorem mem_framesOf {l : List Item} {f : Frame} {i : Ident} {r : Result} :
    (f, i, r) ∈ framesOf l ↔ Item.fr f i r ∈ l := by
  simp only [framesOf, List.mem_filterMap]
  constructor
  · rintro ⟨x, hx, he⟩
    cases x with
    | ev e => cases he
    | fr a b c =>
      simp only [Option.some.injEq, Prod.mk.injEq] at he
      obtain ⟨rfl, rfl, rfl⟩ := he
      exact hx
  · exact fun h => ⟨_, h, rfl⟩

theorem portResult_none {o : Output} (h : framesOf o.itemList = []) : portResult o = none := by
  simp [portResult, h]

theorem portResult_frame {o : Output} {f : Frame} {i : Ident} {r : Result} {l : List (Frame × Ident × Result)}
    (h : framesOf o.itemList = (f, i, r) :: l) : portResult o = some r := by
  simp [portResult, h]

/-- Five bits hold the event counts of a list of at most 31 items, so of every PUSH's (R91). -/
theorem eventCount_toNat {l : List Item} (h : l.length ≤ 31) (code : Nat) :
    (eventCount l code).toNat = (eventsOf l).countP fun e => eventCode e == code := by
  have h1 : (eventsOf l).length ≤ l.length := List.length_filterMap_le _ _
  have h2 := List.countP_le_length (p := fun e => eventCode e == code) (l := eventsOf l)
  rw [eventCount, BitVec.toNat_ofNat]
  exact Nat.mod_eq_of_lt (by omega)

/-- The counts do not depend on the frame shown beside them. -/
theorem portOut_counts (o : Output) :
    (portOut o).evResyncCount = eventCount o.itemList 1 ∧ (portOut o).evChkCount = eventCount o.itemList 2 ∧
    (portOut o).evLenCount = eventCount o.itemList 3 := by
  unfold portOut
  dsimp only
  cases (framesOf o.itemList).head? <;> exact ⟨rfl, rfl, rfl⟩

/-- Every frame in a scan's items carries its own identifier fields and result (R16, R42), and at most 8 bytes. -/
theorem scan_frame {cfg : Config} {xs : List Byte} {f : Frame} {i : Ident} {r : Result}
    (h : Item.fr f i r ∈ (scan cfg xs).1) :
    f.len = f.payload.length ∧ f.len ≤ MAX_LEN ∧ i = iddec cfg.contUsed f.id ∧
      r = decodePayload cfg f.code f.payload := by
  induction xs using scan_induct cfg with
  | wait bs hw => simp [scan_wait hw] at h
  | reject b tl e hr ih =>
    simp only [scan_reject hr, List.mem_cons, reduceCtorEq, false_or] at h
    exact ih h
  | envelope bs len hh ih =>
    simp only [scan_envelope hh, List.mem_cons, envelopeItem, frameItem, Item.fr.injEq] at h
    obtain ⟨rfl, rfl, rfl⟩ | h := h
    · obtain ⟨h1, h2⟩ := mkFrame_len hh cfg.idOrder
      obtain ⟨-, -, -, h8, -⟩ := headOf_envelope hh
      exact ⟨by omega, by omega, rfl, rfl⟩
    · exact ih h

end Sys2Proof.Machine
end

