-- ==== Sys2Proof/Tests/Slice0.lean ====
section
/-! SUPPORT. Tests. Expected values come from spec/95_test_vectors.md (vector names I, F, P, A, S), from the worked examples of the rules, or by hand from the rules; each comment says which. -/

namespace Sys2Proof.Tests

open Sys2Proof Sys2Proof.Machine

/-! ## Helpers -/

/-- R5's defaults with the example flag positions (0, 1, 2) of R126's worked example and the vectors' type byte. -/
def testPar : Params :=
  { idOrder := .LE, chk := .sum8, txType := 0x01, contUsed := true, limitISigned := false,
    flagChg := ⟨0, true⟩, flagDis := ⟨1, true⟩, flagHardDis := ⟨2, true⟩ }

/-- A state after RESET with the given buffer. -/
def testState (buf : List Byte) : State :=
  { buf := buf, begun := true, par := testPar, pending := [], out := .items [] }

/-- A frame's operands as the vectors have them: ptp=1 dst=01 src=F4 cont=0 type=01. -/
def testArgs (pay : List Byte) : FrameArgs :=
  { ftype := 0x01, ptp := true, dst := 0x01, src := 0xF4, cont := false, low := 0, payload := pay }

/-- The output and the buffer an operation leaves, when it answers a next state. -/
def after (o : Outcome) : Option (Output × List Byte) :=
  match o with
  | .next t => some (t.out, t.buf)
  | .fault _ => none
  | .refused _ => none

/-- The decode result of the only item of an output. -/
def resultOf (o : Outcome) : Option Result :=
  match o with
  | .next t => (telemetryOf t.out.itemList).head?
  | .fault _ => none
  | .refused _ => none

/-- Why an operation was refused. -/
def refusalOf (o : Outcome) : Option Refusal :=
  match o with
  | .next _ => none
  | .fault _ => none
  | .refused r => some r

/-- The state of an outcome. -/
def nextOf (o : Outcome) : State :=
  match o with
  | .next t => t
  | .fault _ => State.reset
  | .refused _ => State.reset

/-! ## WellFormed refuses an ill-formed term, for each check -/

theorem test_illformed_payload_of_nine :
    (Instr.limits (testArgs [0, 0, 0, 0, 0, 0, 0, 0, 0])).wellFormed = false := by decide

theorem test_illformed_raw_named_code : (Instr.raw 0x80 (testArgs [])).wellFormed = false := by decide

theorem test_illformed_envenc_id : (Instr.envenc none (2 ^ 29) []).wellFormed = false := by decide

theorem test_illformed_envenc_payload :
    (Instr.envenc none 0 [0, 0, 0, 0, 0, 0, 0, 0, 0]).wellFormed = false := by decide

theorem test_illformed_iddec : (Instr.iddec (2 ^ 29)).wellFormed = false := by decide

theorem test_illformed_idenc_code : (Instr.idenc true 256 0 0 true).wellFormed = false := by decide

theorem test_illformed_idenc_dst : (Instr.idenc true 0 256 0 true).wellFormed = false := by decide

theorem test_illformed_idenc_src : (Instr.idenc true 0 0 256 true).wellFormed = false := by decide

theorem test_illformed_decode :
    (Instr.decode 0x80 [0, 0, 0, 0, 0, 0, 0, 0, 0]).wellFormed = false := by decide

theorem test_illformed_alarmdec : (Instr.alarmdec [0, 0, 0, 0, 0, 0, 0]).wellFormed = false := by decide

theorem test_illformed_mkframe_short : (Instr.mkframe [0xAA, 0, 0, 0, 0, 0, 1, 0]).wellFormed = false := by decide

theorem test_illformed_mkframe_len :
    (Instr.mkframe [0xAA, 0, 0, 0, 0, 0, 9, 0, 0, 0, 0, 0, 0, 0, 0, 0, 0]).wellFormed = false := by decide

/-! ## Decoding words written out from R50 to R53: every constructor that has an encoding

The identifier, bit 28 down to bit 0, is P CCCCCCCC DDDDDDDD SSSSSSSS K 000. -/

/-- The instruction read from an envelope under R5's defaults, with nothing left over. -/
def read (bs : List Byte) : Option Instr :=
  match decode testPar.config bs with
  | .instr i [] => some i
  | .instr _ (_ :: _) => none
  | .incomplete => none
  | .rejected _ => none

/-- F1: id bytes 40 1F 20 18 (little-endian 0x18201F40), sum 0x1AC. -/
theorem test_decode_packvi : read [0xAA, 0x01, 0x40, 0x1F, 0x20, 0x18, 0x04, 0xB9, 0x1F, 0x38, 0x00, 0xAC] =
    some (.packvi (testArgs [0xB9, 0x1F, 0x38, 0x00])) := by decide

/-- G1: the ALARM envelope. -/
theorem test_decode_alarm : read [0xAA, 0x01, 0x40, 0x1F, 0x00, 0x1C, 0x08, 0x21, 0, 0, 0, 0, 0, 0, 0, 0xA5] =
    some (.alarm (testArgs [0x21, 0, 0, 0, 0, 0, 0, 0])) := by decide

/-- G1: the CELLT envelope. -/
theorem test_decode_cellt :
    read [0xAA, 0x01, 0x40, 0x1F, 0x40, 0x18, 0x08, 0xFD, 0x00, 0x02, 0x05, 0xCE, 0xFF, 0x01, 0x03, 0x95] =
    some (.cellt (testArgs [0xFD, 0x00, 0x02, 0x05, 0xCE, 0xFF, 0x01, 0x03])) := by decide

/-- G2: the SOCSOH envelope. -/
theorem test_decode_socsoh :
    read [0xAA, 0x01, 0x40, 0x1F, 0x10, 0x18, 0x06, 0x57, 0x03, 0xDE, 0x03, 0x78, 0x00, 0x41] =
    some (.socsoh (testArgs [0x57, 0x03, 0xDE, 0x03, 0x78, 0x00])) := by decide

/-- G4: the OPSTAT envelope. -/
theorem test_decode_opstat :
    read [0xAA, 0x01, 0x40, 0x1F, 0x50, 0x18, 0x04, 0x03, 0x01, 0x02, 0x05, 0xD7] =
    some (.opstat (testArgs [0x03, 0x01, 0x02, 0x05])) := by decide

/-- G4: the RAW(0x99) envelope. -/
theorem test_decode_raw : read [0xAA, 0x01, 0x40, 0x1F, 0x90, 0x19, 0x02, 0xDE, 0xAD, 0x96] =
    some (.raw 0x99 (testArgs [0xDE, 0xAD])) := by decide

/-- G4: the TEXT envelope, ptp=0 dst=F4 src=01. -/
theorem test_decode_text :
    read [0xAA, 0x01, 0x10, 0x40, 0xFF, 0x08, 0x08, 0x56, 0x31, 0x2E, 0x32, 0x30, 0x00, 0x00, 0x00, 0x77] =
    some (.text ⟨0x01, false, 0xF4, 0x01, false, 0, [0x56, 0x31, 0x2E, 0x32, 0x30, 0x00, 0x00, 0x00]⟩) := by decide

/-- G4: the OPAQUE envelope, cont=1. -/
theorem test_decode_opaque : read [0xAA, 0x01, 0x48, 0x1F, 0x00, 0x1D, 0x02, 0x01, 0x00, 0x88] =
    some (.opaqueCode ⟨0x01, true, 0x01, 0xF4, true, 0, [0x01, 0x00]⟩) := by decide

/-- F15: the ENERGY envelope, ptp=1 dst=10 src=20 cont=1 type=02. -/
theorem test_decode_energy :
    read [0xAA, 0x02, 0x08, 0x02, 0x71, 0x18, 0x08, 0x87, 0xD6, 0x12, 0x00, 0x40, 0x42, 0x0F, 0x00, 0x9D] =
    some (.energy ⟨0x02, true, 0x10, 0x20, true, 0, [0x87, 0xD6, 0x12, 0x00, 0x40, 0x42, 0x0F, 0x00]⟩) := by decide

/-- F8: the CYCLES envelope full of 0xAA bytes. -/
theorem test_decode_cycles : read [0xAA, 0xAA, 0xA8, 0xAA, 0x6A, 0x18, 0x04, 0xAA, 0xAA, 0xAA, 0xAA, 0x2A] =
    some (.cycles ⟨0xAA, true, 0xAA, 0xAA, true, 0, [0xAA, 0xAA, 0xAA, 0xAA]⟩) := by decide

/-- LIMITS by hand from R52: 0 10000000 00000000 00000000 0 101 is 0x08000005; sum 05+08 = 0D. -/
theorem test_decode_limits : read [0xAA, 0x00, 0x05, 0x00, 0x00, 0x08, 0x00, 0x0D] =
    some (.limits ⟨0x00, false, 0x00, 0x00, false, 5, []⟩) := by decide

/-- CELLV by hand from R52: code 0x83 with the vectors' addresses is 0x18301F40 (95, section 2.1); sum 01+40+1F+30+18 = A8. -/
theorem test_decode_cellv : read [0xAA, 0x01, 0x40, 0x1F, 0x30, 0x18, 0x00, 0xA8] =
    some (.cellv (testArgs [])) := by decide

/-- F3: the id field's bits 31..29 are ignored. -/
theorem test_decode_upper_id_bits : read [0xAA, 0x01, 0x40, 0x1F, 0x20, 0xF8, 0x04, 0xB9, 0x1F, 0x38, 0x00, 0x8C] =
    some (.packvi (testArgs [0xB9, 0x1F, 0x38, 0x00])) := by decide

/-- R55: the named rejections, first byte, length byte (F7), checksum (F5), and too few bytes (F11). -/
theorem test_decode_rejects :
    decode testPar.config [0x55, 0xAA] = .rejected (.resync 0x55) ∧
    decode testPar.config [0xAA, 1, 2, 3, 4, 5, 9] = .rejected (.lenError 9) ∧
    decode testPar.config [0xAA, 1, 0x40, 0x1F, 0x20, 0x18, 4, 0xB9, 0x1F, 0x38, 0, 0x53] = .rejected .checksumMismatch ∧
    decode testPar.config [0xAA, 1, 0x40, 0x1F, 0x20] = .incomplete := by decide

/-- opcode_table.json: LIMITS matches 0x08000000, OPAQUE 0x0D000000; an id of zero is RAW. -/
theorem test_table_words :
    (decodeTableWord 32 0x08000000).map Instr.mnemonic = some "LIMITS" ∧
    (decodeTableWord 32 0x0D000000).map Instr.mnemonic = some "OPAQUE" ∧
    (decodeTableWord 32 0).map Instr.mnemonic = some "RAW" := by decide

/-- The first step after reset runs the table's word (here SOCSOH), and its frame is the only item. -/
theorem test_fetch_word :
    resultOf (step (State.reset.withFetchWord 32 0x08100000)) = some (.socSoh ⟨0, 0, 0⟩) := by decide

/-- F15: encoding gives the vector's bytes. -/
theorem test_encode : encode testPar.config (.packvi (testArgs [0xB9, 0x1F, 0x38, 0x00])) =
    some [0xAA, 0x01, 0x40, 0x1F, 0x20, 0x18, 0x04, 0xB9, 0x1F, 0x38, 0x00, 0xAC] := by decide

/-! ## The command rows -/

/-- P1 = S2. -/
theorem test_limits : resultOf (exec (.limits (testArgs [0x90, 0x21, 0xE8, 0x03, 0x40, 0x1A, 0xE8, 0x03])) (testState [])) =
    some (.limits ⟨8592, .unsigned 1000, 6720, .unsigned 1000⟩) := by decide

/-- P2s: the signed reading. -/
theorem test_limits_signed :
    resultOf (exec (.limits (testArgs [0xFF, 0xFF, 0xFF, 0xFF, 0x00, 0x00, 0x00, 0x80]))
      { testState [] with par := { testPar with limitISigned := true } }) =
    some (.limits ⟨65535, .signed (-1), 0, .signed (-32768)⟩) := by decide

/-- P5: bytes 6 and 7 are ignored. -/
theorem test_socsoh : resultOf (exec (.socsoh (testArgs [0xE8, 0x03, 0xE8, 0x03, 0xFF, 0xFF, 0x11, 0x22])) (testState [])) =
    some (.socSoh ⟨1000, 1000, 65535⟩) := by decide

/-- P6: one byte short. -/
theorem test_socsoh_short : resultOf (exec (.socsoh (testArgs [0x57, 0x03, 0xDE, 0x03, 0x78])) (testState [])) =
    some (.insufficientData 0x81 6 5) := by decide

/-- P9: most negative current, largest power. -/
theorem test_packvi : resultOf (exec (.packvi (testArgs [0xFF, 0xFF, 0x00, 0x80])) (testState [])) =
    some (.packVI ⟨65535, -32768, 2147450880⟩) := by decide

/-- P12: a long payload; the sign of the current does not enter the power. -/
theorem test_packvi_long :
    resultOf (exec (.packvi (testArgs [0xB9, 0x1F, 0xC8, 0xFF, 0x01, 0x02, 0x03, 0x04])) (testState [])) =
    some (.packVI ⟨8121, -56, 454776⟩) := by decide

/-- P16. -/
theorem test_cellv : resultOf (exec (.cellv (testArgs [0x6A, 0x0D, 0x02, 0x07, 0x2E, 0x0D, 0x01, 0x0C])) (testState [])) =
    some (.cellV ⟨3434, 2, 7, 3374, 1, 12, 60⟩) := by decide

/-- P17: min above max. -/
theorem test_cellv_negative :
    resultOf (exec (.cellv (testArgs [0x00, 0x00, 0x01, 0x02, 0xFF, 0xFF, 0x03, 0x04])) (testState [])) =
    some (.cellV ⟨0, 1, 2, 65535, 3, 4, BitVec.ofInt 17 (-65535)⟩) := by decide

/-- P20: a negative temperature. -/
theorem test_cellt : resultOf (exec (.cellt (testArgs [0xFD, 0x00, 0x02, 0x05, 0xCE, 0xFF, 0x01, 0x03])) (testState [])) =
    some (.cellT ⟨253, 2, 5, -50, 1, 3, 303⟩) := by decide

/-- P22: the smallest delta. -/
theorem test_cellt_extremes :
    resultOf (exec (.cellt (testArgs [0x00, 0x80, 0x00, 0x00, 0xFF, 0x7F, 0x00, 0x00])) (testState [])) =
    some (.cellT ⟨-32768, 0, 0, 32767, 0, 0, BitVec.ofInt 17 (-65535)⟩) := by decide

/-- P25, with the example configuration (0, 1, 2), polarity 1. -/
theorem test_opstat : resultOf (exec (.opstat (testArgs [0x03, 0x01, 0x02, 0x05])) (testState [])) =
    some (.opStatus ⟨3, 1, 2, 5, true, true, true, true, false, true⟩) := by decide

/-- P26: out-of-range status bytes are passed through. -/
theorem test_opstat_out_of_range : resultOf (exec (.opstat (testArgs [0x08, 0x03, 0x04, 0xFF])) (testState [])) =
    some (.opStatus ⟨8, 3, 4, 0xFF, false, false, false, true, true, true⟩) := by decide

/-- P30. -/
theorem test_cycles : resultOf (exec (.cycles (testArgs [0x2C, 0x01, 0x2A, 0x01])) (testState [])) =
    some (.cycles ⟨300, 298⟩) := by decide

/-- P36: bit 31 is not a sign. -/
theorem test_energy : resultOf (exec (.energy (testArgs [0x00, 0x00, 0x00, 0x80, 0x01, 0x00, 0x00, 0x00])) (testState [])) =
    some (.energy ⟨2147483648, 1⟩) := by decide

/-- P39: an embedded zero is removed. -/
theorem test_text : resultOf (exec (.text (testArgs [0x41, 0x00, 0x42])) (testState [])) =
    some (.text [0x41, 0x42]) := by decide

/-- P42: only 0x00 is filtered. -/
theorem test_text_unprintable : resultOf (exec (.text (testArgs [0x00, 0x80, 0x7F, 0x01, 0xFF])) (testState [])) =
    some (.text [0x80, 0x7F, 0x01, 0xFF]) := by decide

/-- A1 = S7. -/
theorem test_alarm : resultOf (exec (.alarm (testArgs [0x21, 0, 0, 0, 0, 0, 0, 0])) (testState [])) =
    some (.alarm ⟨0x21, [0, 5], 2, 3⟩) := by decide

/-- A15: seven bytes are too few. -/
theorem test_alarm_short : resultOf (exec (.alarm (testArgs [0x21, 0, 0, 0, 0, 0, 0])) (testState [])) =
    some (.insufficientData 0xC0 8 7) := by decide

/-- P44: zeros are kept. -/
theorem test_opaque : resultOf (exec (.opaqueCode (testArgs [0x01, 0x00])) (testState [])) =
    some (.opaquePayload [0x01, 0x00]) := by decide

/-- P49: 0x88 is not in the table. -/
theorem test_raw : resultOf (exec (.raw 0x88 (testArgs [0x01])) (testState [])) = some (.raw 0x88 [0x01]) := by decide

/-- R53: a named code never selects the fallback row. -/
theorem test_raw_named_code : refusalOf (exec (.raw 0x80 (testArgs [])) (testState [])) = some .outsideDomain := by decide

/-! ## The steps -/

/-- F1 at byte 11: the frame, its identifier fields and its result; the buffer is empty. -/
theorem test_push_completes :
    after (exec (.push 0xAC) (testState [0xAA, 0x01, 0x40, 0x1F, 0x20, 0x18, 0x04, 0xB9, 0x1F, 0x38, 0x00])) =
    some (.items [.fr ⟨0x01, 0x18201F40, 4, [0xB9, 0x1F, 0x38, 0x00]⟩ ⟨true, 0x82, 0x01, 0xF4, false⟩
      (.packVI ⟨8121, 56, 454776⟩)], []) := by decide

/-- F12 at byte 15: a valid envelope inside a rejected one, and an event after the frame. -/
theorem test_push_rescan :
    after (exec (.push 0xB4) (testState [0xAA, 0x01, 0, 0, 0, 0, 0x08, 0xAA, 0, 0, 0, 0, 0, 0, 0])) =
    some (.items [.ev .checksumMismatch, .ev (.resync 0x01), .ev (.resync 0), .ev (.resync 0), .ev (.resync 0),
      .ev (.resync 0), .ev (.resync 0x08), .fr ⟨0, 0, 0, []⟩ ⟨false, 0, 0, 0, false⟩ (.raw 0 []),
      .ev (.resync 0xB4)], []) := by decide

/-- F10 at byte 7: two rejections in one step, and what is left waits. -/
theorem test_push_two_rejections :
    after (exec (.push 0xF0) (testState [0xAA, 0xAA, 0xAA, 0xAA, 0x01, 0x00, 0x00])) =
    some (.items [.ev .checksumMismatch, .ev (.lenError 240)], [0xAA, 0xAA, 0x01, 0x00, 0x00, 0xF0]) := by decide

/-- R85's worked example. -/
theorem test_reset : after (exec .reset (testState [0xAA, 0x01, 0x40])) = some (.items [], []) := by decide

/-- F11 followed by FLUSH. -/
theorem test_flush : after (exec .flush (testState [0xAA, 0x01, 0x40, 0x1F, 0x20])) = some (.items [], []) := by decide

/-- R190: a PUSH before the first RESET is refused. -/
theorem test_push_before_reset :
    refusalOf (exec (.push 0xAA) { testState [] with begun := false }) = some .runNotBegun := by decide

/-! ## The pure functions -/

/-- F15, with P_TX_TYPE as the type byte. -/
theorem test_envenc : after (exec (.envenc none 0x18201F40 [0xB9, 0x1F, 0x38, 0x00]) (testState [])) =
    some (.envelope [0xAA, 0x01, 0x40, 0x1F, 0x20, 0x18, 0x04, 0xB9, 0x1F, 0x38, 0x00, 0xAC], []) := by decide

/-- F14: the id bytes in BE order. -/
theorem test_envenc_be :
    after (exec (.envenc (some 0x01) 0x18201F40 [0xB9, 0x1F, 0x38, 0x00])
      { testState [] with par := { testPar with idOrder := .BE } }) =
    some (.envelope [0xAA, 0x01, 0x18, 0x20, 0x1F, 0x40, 0x04, 0xB9, 0x1F, 0x38, 0x00, 0xAC], []) := by decide

/-- I14. -/
theorem test_iddec : after (exec (.iddec 0x12345678) (testState [])) =
    some (.ident ⟨true, 0x23, 0x45, 0x67, true⟩, []) := by decide

/-- 95, section 2.1: with P_CONT_USED = false the continuation is reported 0. -/
theorem test_iddec_cont_unused :
    after (exec (.iddec 0x18201F48) { testState [] with par := { testPar with contUsed := false } }) =
    some (.ident ⟨true, 0x82, 0x01, 0xF4, false⟩, []) := by decide

/-- I10. -/
theorem test_idenc : after (exec (.idenc false 0x8F 0x12 0x34 true) (testState [])) =
    some (.word 0x08F12348, []) := by decide

/-- R101: a field out of range is refused, not masked. -/
theorem test_idenc_refused : refusalOf (exec (.idenc true 256 0 0 false) (testState [])) = some .outsideDomain := by
  decide

/-- P52: an unknown code never gives `InsufficientData`. -/
theorem test_decode_unknown : after (exec (.decode 0x7F [0x90, 0x21]) (testState [])) =
    some (.result (.raw 0x7F [0x90, 0x21]), []) := by decide

/-- P14: an empty payload. -/
theorem test_decode_empty : after (exec (.decode 0x82 []) (testState [])) =
    some (.result (.insufficientData 0x82 4 0), []) := by decide

/-- A12. -/
theorem test_alarmdec : after (exec (.alarmdec [0x04, 0, 0, 0, 0, 0x01, 0, 0]) (testState [])) =
    some (.result (.alarm ⟨0x0000010000000004, [2, 40], 2, 2⟩), []) := by decide

/-- A4: the reserved bit 17. -/
theorem test_alarmdec_bit17 : after (exec (.alarmdec [0, 0, 0x02, 0, 0, 0, 0, 0]) (testState [])) =
    some (.result (.alarm ⟨0x20000, [17], 1, 1⟩), []) := by decide

/-- R81's worked example, in both byte orders. -/
theorem test_mkframe :
    after (exec (.mkframe [0xAA, 0x01, 0x40, 0x1F, 0x20, 0x18, 0x04, 0xB9, 0x1F, 0x38, 0x00, 0xAC])
      { testState [] with par := { testPar with idOrder := .BE } }) =
    some (.frame ⟨0x01, 0x001F2018, 4, [0xB9, 0x1F, 0x38, 0x00]⟩, []) := by decide

/-- F9 without its last byte: the true envelope's first bytes are left. -/
theorem test_scan : after (exec (.scan [0xAA, 0xAA, 0x01, 0x40, 0x1F, 0x20, 0x18]) (testState [])) =
    some (.scanned [.ev (.lenError 24)] [0xAA, 0x01, 0x40, 0x1F, 0x20, 0x18], []) := by decide

/-! ## Ports and scaled values -/

/-- R21: `rst` has priority, and a RESET cycle shows no frame. -/
theorem test_port_priority : (PortIn.operation ⟨true, true, true, 0xAA⟩) = some .reset ∧
    (PortIn.operation ⟨false, true, true, 0xAA⟩) = some .flush ∧
    (PortIn.operation ⟨false, false, true, 0xAA⟩) = some (.push 0xAA) ∧
    (PortIn.operation ⟨false, false, false, 0xAA⟩) = none := by decide

/-- The output of the PUSH that completes the envelope of a command row. -/
def pushed (i : Instr) : Output :=
  match exec (.push (((encode testPar.config i).getD []).getLastD 0)) (testState ((encode testPar.config i).getD []).dropLast) with
  | .next t => t.out
  | .fault _ => .items []
  | .refused _ => .items []

/-- R21 on P25: the six indications of command 0x85, and its tag 5. -/
theorem test_port_flags :
    (portOut (pushed (.opstat (testArgs [0x03, 0x01, 0x02, 0x05])))).resKind = 5 ∧
    portFlag (pushed (.opstat (testArgs [0x03, 0x01, 0x02, 0x05]))) .chargeProhibited = true ∧
    portFlag (pushed (.opstat (testArgs [0x03, 0x01, 0x02, 0x05]))) .dischargeProhibited = false ∧
    portFlag (pushed (.opstat (testArgs [0x03, 0x01, 0x02, 0x05]))) .workStatus_inRange = true ∧
    portField (pushed (.opstat (testArgs [0x03, 0x01, 0x02, 0x05]))) .flags = 5 := by decide

/-- R21 on P39, P44 and RAW(0x99): the byte lists and the code. -/
theorem test_port_bytes :
    portBytes (pushed (.text (testArgs [0x41, 0x00, 0x42]))) = [0x41, 0x42] ∧
    portBytes (pushed (.opaqueCode (testArgs [0x01, 0x00]))) = [0x01, 0x00] ∧
    portBytes (pushed (.raw 0x99 (testArgs [0xDE, 0xAD]))) = [0xDE, 0xAD] ∧
    portCode (pushed (.raw 0x99 (testArgs [0xDE, 0xAD]))) = 0x99 := by decide

/-- R21 on P6: `InsufficientData` shows its code and lengths, and no telemetry. -/
theorem test_port_insufficient :
    (portOut (pushed (.socsoh (testArgs [0x57, 0x03, 0xDE, 0x03, 0x78])))).resKind = 12 ∧
    portCode (pushed (.socsoh (testArgs [0x57, 0x03, 0xDE, 0x03, 0x78]))) = 0x81 ∧
    portRequired (pushed (.socsoh (testArgs [0x57, 0x03, 0xDE, 0x03, 0x78]))) = 6 ∧
    portActual (pushed (.socsoh (testArgs [0x57, 0x03, 0xDE, 0x03, 0x78]))) = 5 ∧
    portField (pushed (.socsoh (testArgs [0x57, 0x03, 0xDE, 0x03, 0x78]))) .soc = 0 := by decide

/-- R21 on F12 at byte 15: one ChecksumMismatch, seven Resync, no LenError. -/
theorem test_port_counts :
    ((portOut (nextOf (exec (.push 0xB4)
      (testState [0xAA, 0x01, 0, 0, 0, 0, 0x08, 0xAA, 0, 0, 0, 0, 0, 0, 0]))).out).evResyncCount = 7) ∧
    ((portOut (nextOf (exec (.push 0xB4)
      (testState [0xAA, 0x01, 0, 0, 0, 0, 0x08, 0xAA, 0, 0, 0, 0, 0, 0, 0]))).out).evChkCount = 1) ∧
    ((portOut (nextOf (exec (.push 0xB4)
      (testState [0xAA, 0x01, 0, 0, 0, 0, 0x08, 0xAA, 0, 0, 0, 0, 0, 0, 0]))).out).evLenCount = 0) := by decide

/-- R115: 8592 at exponent 1 is 859.2, and a power of 454776 is 4.54776 kW (S2, S3). -/
theorem test_physical : Field.physical .chargeV 8592 = 8592 / 10 ∧ Field.physical .power 454776 = 454776 / 100000 := by
  constructor <;> simp [Field.physical, Field.exponent]

/-! ## Witnesses: the hypotheses of the statements can be met

One theorem for each statement with hypotheses, under the statement's name; for a statement of several clauses, each
clause at the ends of its range. -/

/-- The envelope of F1. -/
def envF1 : List Byte := [0xAA, 0x01, 0x40, 0x1F, 0x20, 0x18, 0x04, 0xB9, 0x1F, 0x38, 0x00, 0xAC]

/-- A buffer that holds a header whose length byte is given, and so many data bytes. -/
def bufWith (len : Byte) (data : Nat) : List Byte := [0xAA, 0x01, 0x40, 0x1F, 0x20, 0x18, len] ++ List.replicate data 0

theorem witness_DecodeOfEncodeIsTheInstruction :
    (Instr.packvi (testArgs [0xB9, 0x1F, 0x38, 0x00])).wellFormed = true ∧
    encode testPar.config (.packvi (testArgs [0xB9, 0x1F, 0x38, 0x00])) = some envF1 := by decide

theorem witness_DecodedBytesAreTheEncoding :
    decode testPar.config (envF1 ++ [0x55]) = .instr (.packvi (testArgs [0xB9, 0x1F, 0x38, 0x00])) [0x55] ∧
    (id32 testPar.config.idOrder (envF1 ++ [0x55])).toNat < 2 ^ 29 := by decide

theorem witness_CommandCodeAloneSelectsTheRow :
    (Frame.code ⟨0x01, 0x18201F40, 0, []⟩ = Frame.code ⟨0x02, 0x0820FFFF, 1, [0x05]⟩) := by decide

theorem witness_FetchedTableWordRunsNext :
    State.reset.par = Params.default ∧ decodeTableWord 32 0x08000000 =
      some (.limits ⟨0, false, 0, 0, false, 0, [0, 0, 0, 0, 0, 0, 0, 0]⟩) := ⟨rfl, by decide⟩

theorem witness_StepRunsTheDecodedInstruction :
    ({ testState envF1.dropLast with pending := [.push 0xAC] } : State).pending = .push 0xAC :: [] ∧
    (testState envF1.dropLast).begun = true ∧
    decode (testState envF1.dropLast).cfg ((testState envF1.dropLast).buf ++ [0xAC]) =
      .instr (.packvi (testArgs [0xB9, 0x1F, 0x38, 0x00])) [] := by decide

theorem witness_IddecGivesTheFieldsByPlace : (0 : Nat) < 2 ^ 29 ∧ 2 ^ 29 - 1 < 2 ^ 29 := by decide

theorem witness_IdencIsTheSumOfShiftedFields :
    (0 : Nat) < 256 ∧ 255 < 256 ∧ (256 ≤ 256 ∨ 256 ≤ 0 ∨ 256 ≤ 0) := by decide

theorem witness_IdentifierRoundTrip :
    ((testState []).par.contUsed = true) ∧ (2 ^ 29 - 1 < 2 ^ 29) ∧ ((255 : Nat) < 256) ∧
    ({ testPar with contUsed := false }.contUsed = true ∨ false = false) := by decide

theorem witness_OnlyCodeAndPayloadReachTheDecoder :
    (testArgs [0, 0, 0, 0, 0, 0, 0, 0]).payload = FrameArgs.payload ⟨9, false, 8, 7, true, 6, [0, 0, 0, 0, 0, 0, 0, 0]⟩ ∧
    (testArgs [0, 0, 0, 0, 0, 0, 0, 0]).payload.length ≤ 8 := by decide

theorem witness_OperationsCompleteExactlyOnTheirDomain :
    (Instr.push 0).wellFormed = true ∧ (testState []).begun = true ∧ isStep (.scan []) = false := by decide

theorem witness_OutsideTheDomainIsRefused : (Instr.mkframe []).wellFormed = false := by decide

theorem witness_PureOperationsReadNoState :
    isStep (.iddec 0) = false ∧ (testState []).par = (testState [0xAA]).par ∧
    exec (.iddec 0) (testState []) = .next (nextOf (exec (.iddec 0) (testState []))) ∧
    exec (.iddec 0) (testState [0xAA]) = .next (nextOf (exec (.iddec 0) (testState [0xAA]))) := ⟨rfl, rfl, rfl, rfl⟩

theorem witness_ParametersAreNeverWritten :
    exec .flush (testState [0xAA]) = .next (nextOf (exec .flush (testState [0xAA]))) := rfl

theorem witness_FramerEventsComeFromPushOnly :
    exec (.push 0x55) (testState []) = .next (nextOf (exec (.push 0x55) (testState []))) ∧
    Item.ev (.resync 0x55) ∈ (nextOf (exec (.push 0x55) (testState []))).out.itemList ∧
    exec (.push 9) (testState [0xAA, 0, 0, 0, 0, 0]) = .next (nextOf (exec (.push 9) (testState [0xAA, 0, 0, 0, 0, 0]))) ∧
    Item.ev (.lenError 9) ∈ (nextOf (exec (.push 9) (testState [0xAA, 0, 0, 0, 0, 0]))).out.itemList :=
  ⟨rfl, by decide, rfl, by decide⟩

theorem witness_NothingPendingChangesNothing : (testState [0xAA]).pending = [] := rfl

/-- Also of FlushForgetsEarlierBytes. -/
theorem witness_ResetAndFlushEmptyTheBuffer : (testState [0xAA, 0x01]).begun = true := rfl

theorem witness_RunMustBeginWithReset : ({ testState [0x55] with begun := false } : State).begun = false := rfl

theorem witness_PushAtAnEmptyBuffer : (testState []).begun = true ∧ (testState []).buf = [] ∧
    (0xAB : Byte) ≠ 0xAA := by decide

theorem witness_PushByPhase_header :
    (testState [0xAA]).Inv ∧ phaseOf (testState [0xAA]).buf = .header ∧ (testState [0xAA]).buf.length < 6 ∧
    (testState [0xAA, 1, 2, 3, 4]).Inv ∧ phaseOf (testState [0xAA, 1, 2, 3, 4]).buf = .header ∧
    (testState [0xAA, 1, 2, 3, 4]).buf.length < 6 :=
  ⟨fun _ => rfl, by decide, by decide, fun _ => rfl, by decide, by decide⟩

theorem witness_PushByPhase_length :
    (testState [0xAA, 1, 2, 3, 4, 5]).Inv ∧ phaseOf (testState [0xAA, 1, 2, 3, 4, 5]).buf = .header ∧
    (testState [0xAA, 1, 2, 3, 4, 5]).buf.length = 6 ∧ (8 : Byte).toNat ≤ 8 ∧ (0 : Byte).toNat ≤ 8 :=
  ⟨fun _ => rfl, by decide, by decide, by decide, by decide⟩

theorem witness_PushByPhase_data :
    (testState (bufWith 1 0)).Inv ∧ phaseOf (testState (bufWith 1 0)).buf = .data ∧
    (testState (bufWith 8 7)).Inv ∧ phaseOf (testState (bufWith 8 7)).buf = .data :=
  ⟨fun _ => by decide, by decide, fun _ => by decide, by decide⟩

/-- Also of BufferIsBounded, at 15 bytes; its other phases are those of the witnesses above and the empty buffer. -/
theorem witness_PushByPhase_check :
    (testState (bufWith 0 0)).Inv ∧ phaseOf (testState (bufWith 0 0)).buf = .check ∧
    (testState (bufWith 8 8)).Inv ∧ phaseOf (testState (bufWith 8 8)).buf = .check ∧
    (testState (bufWith 8 8)).buf.length = 15 :=
  ⟨fun _ => by decide, by decide, fun _ => by decide, by decide, by decide⟩

theorem witness_RejectedCandidateIsRescanned_length :
    (testState [0xAA, 1, 2, 3, 4, 5]).buf ++ [9] = 0xAA :: [1, 2, 3, 4, 5, 9] ∧
    6 ≤ ([1, 2, 3, 4, 5, 9] : List Byte).length ∧ 8 < (([1, 2, 3, 4, 5, 9] : List Byte).getD 5 0).toNat := by decide

theorem witness_RejectedCandidateIsRescanned_checksum :
    (testState (bufWith 0 0)).buf ++ [0] = 0xAA :: ((bufWith 0 0).tail ++ [0]) ∧
    ((bufWith 0 0).tail ++ [0]).getD 6 0 ≠ (testState (bufWith 0 0)).par.chk.apply (((bufWith 0 0).tail ++ [0]).take 6) ∧
    (testState (bufWith 8 8)).buf ++ [0] = 0xAA :: ((bufWith 8 8).tail ++ [0]) ∧
    ((bufWith 8 8).tail ++ [0]).getD 14 0 ≠
      (testState (bufWith 8 8)).par.chk.apply (((bufWith 8 8).tail ++ [0]).take 14) ∧
    7 + 8 ≤ ((bufWith 8 8).tail ++ [0]).length := by decide

/-- The domain of ENVENC just left, on either operand. -/
theorem witness_EnvencWritesTheEnvelope_refused :
    (2 ^ 29 ≤ 2 ^ 29 ∨ 8 < 0) ∧ 8 < ([0, 0, 0, 0, 0, 0, 0, 0, 0] : List Byte).length := by decide

/-- F3: a valid envelope whose id bits 31..29 are set. -/
theorem witness_DefaultChecksumIsTheByteSum_upper_id_bits :
    (testState []).par.chk = .sum8 ∧ ([0xB9, 0x1F, 0x38, 0x00] : List Byte).length ≤ 8 ∧
    (0x8C : Byte).toNat = (0x01 + 0x40 + 0x1F + 0x20 + 0xF8 + 4 + (0xB9 + 0x1F + 0x38)) % 256 := by decide

/-- Also of DefaultChecksumIsTheByteSum, EnvencWritesTheEnvelope, EnvelopeRoundTrip and DecodeDispatchesByCode. -/
theorem witness_MkframeReadsTheEnvelope :
    ([] : List Byte).length ≤ 8 ∧ ([1, 2, 3, 4, 5, 6, 7, 8] : List Byte).length ≤ 8 ∧ 2 ^ 29 - 1 < 2 ^ 29 ∧
    (testState []).par.chk = .sum8 ∧ (testState []).begun = true ∧ (testState []).buf = [] := by decide

/-- Also of ChunkingDoesNotMatter. -/
theorem witness_PushingBytesIsScanningThem : (testState (bufWith 8 8)).begun = true ∧ (testState (bufWith 8 8)).Inv :=
  ⟨rfl, fun _ => by decide⟩

/-- Also of PushGivesAtMostSixteenItems, FrameItemsAreCoherent and PortsShowTheStep: a step that outputs a frame. -/
theorem witness_PushGivesAtMostOneFrame :
    (testState envF1.dropLast).Inv ∧
    exec (.push 0xAC) (testState envF1.dropLast) = .next (nextOf (exec (.push 0xAC) (testState envF1.dropLast))) ∧
    (nextOf (exec (.push 0xAC) (testState envF1.dropLast))).out.itemList =
      [.fr ⟨0x01, 0x18201F40, 4, [0xB9, 0x1F, 0x38, 0x00]⟩ ⟨true, 0x82, 0x01, 0xF4, false⟩ (.packVI ⟨8121, 56, 454776⟩)] :=
  ⟨fun _ => by decide, rfl, by decide⟩

/-- The PUSH that completes a command row's envelope starts from a buffer the invariant allows, answers a next state
with one frame, and that frame's result is the given one. -/
def shows (i : Instr) (r : Result) : Bool :=
  bufOk ((encode testPar.config i).getD []).dropLast && telemetryOf (pushed i).itemList == [r]

/-- Every clause of PortsShowTheResult, InsufficientData at its shortest and at its longest; also of
PortsShowTheStep's clause about it. -/
theorem witness_PortsShowTheResult :
    shows (.packvi (testArgs [0xFF, 0xFF, 0x00, 0x80])) (.packVI ⟨65535, -32768, 2147450880⟩) = true ∧
    shows (.cellv (testArgs [0, 0, 1, 2, 0xFF, 0xFF, 3, 4])) (.cellV ⟨0, 1, 2, 65535, 3, 4, BitVec.ofInt 17 (-65535)⟩) = true ∧
    shows (.cellt (testArgs [0, 0x80, 0, 0, 0xFF, 0x7F, 0, 0])) (.cellT ⟨-32768, 0, 0, 32767, 0, 0, BitVec.ofInt 17 (-65535)⟩) = true ∧
    shows (.alarm (testArgs [0x21, 0, 0, 0, 0, 0, 0, 0])) (.alarm ⟨0x21, [0, 5], 2, 3⟩) = true ∧
    shows (.opstat (testArgs [3, 1, 2, 5])) (.opStatus ⟨3, 1, 2, 5, true, true, true, true, false, true⟩) = true ∧
    shows (.text (testArgs [])) (.text []) = true ∧
    shows (.opaqueCode (testArgs [1, 0])) (.opaquePayload [1, 0]) = true ∧
    shows (.raw 0x99 (testArgs [0xDE, 0xAD])) (.raw 0x99 [0xDE, 0xAD]) = true ∧
    shows (.alarm (testArgs [])) (.insufficientData 0xC0 8 0) = true ∧
    shows (.limits (testArgs [0, 0, 0, 0, 0, 0, 0])) (.insufficientData 0x80 8 7) = true := by decide

/-- The layout clause of PortsShowTheResult, at an eight-byte layout. -/
theorem witness_PortsShowTheResult_layout :
    shows (.limits (testArgs [0x90, 0x21, 0xE8, 0x03, 0x40, 0x1A, 0xE8, 0x03]))
      (.limits ⟨8592, .unsigned 1000, 6720, .unsigned 1000⟩) = true ∧
    (⟨6, .dischargeI, .I16⟩ : FieldLayout) ∈ layoutOf 0x80 := by decide

/-- A step that outputs none. -/
theorem witness_PortsShowTheStep_no_frame :
    exec (.push 0x55) (testState []) = .next (nextOf (exec (.push 0x55) (testState []))) ∧
    framesOf (nextOf (exec (.push 0x55) (testState []))).out.itemList = [] := ⟨rfl, by decide⟩

theorem witness_EveryStepKeepsTheBufferInvariant :
    ({ testState [0xAA, 1, 2] with pending := [.push 3] } : State).Inv ∧
    step { testState [0xAA, 1, 2] with pending := [.push 3] } =
      .next (nextOf (step { testState [0xAA, 1, 2] with pending := [.push 3] })) := ⟨fun _ => rfl, rfl⟩

theorem witness_ResynchronisationRecovers :
    (testState []).begun = true ∧ (testState []).buf = [] ∧ (∀ g ∈ ([0x55, 0x00] : List Byte), g ≠ 0xAA) ∧
    (Instr.packvi (testArgs [0xB9, 0x1F, 0x38, 0x00])).wellFormed = true ∧
    encode (testState []).cfg (.packvi (testArgs [0xB9, 0x1F, 0x38, 0x00])) = some envF1 := by decide

/-- Each required length missed by one byte, and the shortest miss; also of the FailsBelow clauses. -/
theorem witness_ShortPayloadIsInsufficientData :
    (testArgs [0, 0, 0, 0, 0, 0, 0]).payload.length < 8 ∧ (testArgs [0, 0, 0, 0, 0]).payload.length < 6 ∧
    (testArgs [0, 0, 0]).payload.length < 4 ∧ (testArgs []).payload.length < reqLen 0x82 := by decide

theorem witness_ExtraPayloadBytesAreIgnored :
    (0x81 : Byte) ∈ ([0x81, 0x82, 0x85, 0x86] : List Byte) ∧
    (∀ c ∈ ([0x82, 0x85, 0x86] : List Byte), reqLen c ≤ ([1, 2, 3, 4] : List Byte).length) ∧
    reqLen 0x81 ≤ ([1, 2, 3, 4, 5, 6] : List Byte).length ∧
    (([1, 2, 3, 4, 5, 6] : List Byte) ++ [7, 8]).length ≤ 8 := by decide

theorem witness_ResultFieldsFollowTheLayout :
    (⟨6, .dischargeI, .I16⟩ : FieldLayout) ∈ layoutOf 0x80 ∧
    reqLen 0x80 ≤ ([1, 2, 3, 4, 5, 6, 7, 8] : List Byte).length := by decide

/-- Of LimitsResult, CellVResult, CellTResult, EnergyResult and AlarmResult; TextResult and OpaqueAndRawCopyThePayload
at their longest payload. -/
theorem witness_EightBytePayloads :
    (testArgs [1, 2, 3, 4, 5, 6, 7, 8]).payload = [1, 2, 3, 4, 5, 6, 7, 8] ∧
    (testArgs [1, 2, 3, 4, 5, 6, 7, 8]).payload.length = 8 ∧
    (0x99 : Byte) ∉ ([0x80, 0x81, 0x82, 0x83, 0x84, 0x85, 0x86, 0x87, 0x8F, 0xC0, 0xD0] : List Byte) := by decide

/-- Of SocSohResult, PackViResult, OpStatResult and CyclesResult, at the shortest and the longest payload. -/
theorem witness_LongerPayloads :
    (testArgs [1, 2, 3, 4, 5, 6]).payload = 1 :: 2 :: 3 :: 4 :: 5 :: 6 :: [] ∧
    (testArgs [1, 2, 3, 4, 5, 6, 7, 8]).payload = 1 :: 2 :: 3 :: 4 :: 5 :: 6 :: [7, 8] ∧
    (testArgs [1, 2, 3, 4]).payload = 1 :: 2 :: 3 :: 4 :: [] ∧
    (testArgs [1, 2, 3, 4, 5, 6, 7, 8]).payload = 1 :: 2 :: 3 :: 4 :: [5, 6, 7, 8] := by decide

theorem witness_PowerIsVoltageTimesCurrent :
    decodePayload testPar.config 0x82 [0xFF, 0xFF, 0x00, 0x80] = .packVI ⟨65535, -32768, 2147450880⟩ := by decide

/-- Each clause, the first with all inputs high; FLUSH in a run that has begun and in one that has not. -/
theorem witness_PortPriority :
    ((⟨true, true, true, 0xAA⟩ : PortIn).rst = true) ∧
    ((⟨false, true, true, 0xAA⟩ : PortIn).rst = false ∧ (⟨false, true, true, 0xAA⟩ : PortIn).flush = true) ∧
    ((⟨false, false, true, 0xAA⟩ : PortIn).flush = false ∧ (⟨false, false, true, 0xAA⟩ : PortIn).inValid = true) ∧
    ((⟨false, false, false, 0xAA⟩ : PortIn).inValid = false) ∧
    (testState [0xAA]).begun = true ∧ ({ testState [0xAA] with begun := false } : State).begun = false := by decide

/-- R21, R190: `rst` beside `flush` begins a run that has not begun, where `flush` alone is refused. -/
theorem test_port_reset_begins_the_run :
    after (portStep { testState [0x55] with begun := false } ⟨true, true, true, 0xAA⟩) = some (.items [], []) ∧
    refusalOf (portStep { testState [0x55] with begun := false } ⟨false, true, true, 0xAA⟩) = some .runNotBegun := by
  decide

end Sys2Proof.Tests
end

/-! Proofs of the family 00_scope: the placed word of the opcode table (R6, R80), and what the pure operations read
(R3, R12, R17). -/

namespace Sys2Proof.Proofs

open Sys2Proof.Machine

/-! ## A placed table word -/

/-- A table word has an instruction only when the decoder reads its whole envelope. -/
theorem decode_tableEnvelope_of_decodeTableWord {nbits w : Nat} {i : Instr} (h : decodeTableWord nbits w = some i) :
    decode Params.default.config (tableEnvelope Params.default.config nbits w) = .instr i [] := by
  unfold decodeTableWord at h
  split at h
  · cases h
  · split at h
    · next j hd =>
      cases h
      exact hd
    all_goals cases h

theorem tableEnvelope_ne_nil (cfg : Config) (nbits w : Nat) : tableEnvelope cfg nbits w ≠ [] := by
  simp [tableEnvelope, envelopeOf]

/-- What withFetchWord puts in the buffer, with the byte it leaves to be pushed, is the word's envelope. -/
theorem tableEnvelope_dropLast_append_getLastD (cfg : Config) (nbits w : Nat) :
    (tableEnvelope cfg nbits w).dropLast ++ [(tableEnvelope cfg nbits w).getLastD 0] = tableEnvelope cfg nbits w := by
  have hne := tableEnvelope_ne_nil cfg nbits w
  rw [List.getLastD_eq_getLast?, List.getLast?_eq_some_getLast hne, Option.getD_some, List.dropLast_concat_getLast]

/-- The step from a placed word scans that word's whole envelope. -/
theorem step_withFetchWord (s : State) (nbits w : Nat) :
    step (s.withFetchWord nbits w) = .next { s with
      begun := true
      buf := (scan s.cfg (tableEnvelope s.cfg nbits w)).2
      out := .items (scan s.cfg (tableEnvelope s.cfg nbits w)).1 } := by
  rw [step_pending (rest := s.pending) rfl, exec_push rfl]
  simp only [State.withFetchWord, tableEnvelope_dropLast_append_getLastD]

/-- Settles O5: the pushed byte completes the envelope, whose scan gives the item of the decoded instruction. -/
theorem fetchedTableWordRunsNext : Obligations.FetchedTableWordRunsNext := by
  intro s nbits w i hpar hw
  have hd : decode s.cfg (tableEnvelope s.cfg nbits w) = .instr i [] := by
    rw [State.cfg, hpar]
    exact decode_tableEnvelope_of_decodeTableWord hw
  obtain ⟨it, hexec, hscan⟩ := scan_decode (s := { s with begun := true, buf := [] }) hd
  have hnil : scan s.cfg [] = ([], []) := scan_of_bufOk rfl
  rw [step_withFetchWord, hexec, hscan, hnil]
  rfl

/-! ## The pure operations -/

/-- A pure operation changes the output only. -/
theorem exec_pure_frame {i : Instr} {s t : State} (hi : isStep i = false) (h : exec i s = .next t) :
    t = s.returns t.out := by
  obtain ⟨o, rfl⟩ | ⟨b, rfl, -⟩ | ⟨rfl, -⟩ | ⟨rfl, -⟩ := exec_next_cases h
  · rfl
  all_goals cases hi

/-- An operation kept to its domain returns the value it is given, whatever the state. -/
theorem inDomain_out_eq {ok₁ ok₂ : Bool} {s₁ s₂ t₁ t₂ : State} {o : Output}
    (h₁ : inDomain ok₁ s₁ o = .next t₁) (h₂ : inDomain ok₂ s₂ o = .next t₂) : t₁.out = t₂.out := by
  rw [(inDomain_next h₁).2, (inDomain_next h₂).2]
  rfl

/-- A pure operation returns the same from any two states with the same parameters: every one but SCAN and RAW is
directly an operation kept to its domain, with a value computed from its operands and the parameters. -/
theorem exec_pure_out_eq {i : Instr} {s₁ s₂ t₁ t₂ : State} (hi : isStep i = false) (hpar : s₁.par = s₂.par)
    (h₁ : exec i s₁ = .next t₁) (h₂ : exec i s₂ = .next t₂) : t₁.out = t₂.out := by
  obtain ⟨buf₁, begun₁, par, pending₁, out₁⟩ := s₁
  obtain ⟨buf₂, begun₂, par₂, pending₂, out₂⟩ := s₂
  obtain rfl : par = par₂ := hpar
  cases i with
  | push | reset | flush => cases hi
  | scan xs =>
    cases h₁
    cases h₂
    rfl
  | raw c a =>
    simp only [exec, execRaw] at h₁ h₂
    split at h₁
    · cases h₁
    · next hc =>
      rw [if_neg hc] at h₂
      exact inDomain_out_eq h₁ h₂
  | limits | socsoh | packvi | cellv | cellt | opstat | cycles | energy | text | alarm | opaqueCode =>
    exact inDomain_out_eq h₁ h₂
  | envenc | iddec | idenc | decode | alarmdec | mkframe => exact inDomain_out_eq h₁ h₂

/-- Settles O13: the frame of a pure operation, and the same output under the same parameters. -/
theorem pureOperationsReadNoState : Obligations.PureOperationsReadNoState :=
  fun _ _ _ _ _ hi hpar h₁ h₂ => ⟨exec_pure_frame hi h₁, exec_pure_out_eq hi hpar h₁ h₂⟩

end Sys2Proof.Proofs

/-! Proofs of the family 10_state: the buffer invariant and R13's phases, what no operation writes, the coherence of a
frame's item, and what the ports show of a step (R10 to R22). -/

namespace Sys2Proof.Proofs

open Sys2Proof.Machine Sys2Proof.Claims

/-! ## The buffer invariant and the phases (R10, R11, R13) -/

/-- R11's text: the buffer is empty, or an incomplete candidate behind a sync byte. -/
theorem bufOk_iff {buf : List Byte} : bufOk buf = true ↔
    buf = [] ∨ (buf.head? = some SYNC ∧ (buf.length < 7 ∨
      (7 ≤ buf.length ∧ (buf.getD 6 0).toNat ≤ 8 ∧ buf.length < 8 + (buf.getD 6 0).toNat))) := by
  cases buf with
  | nil => simp [bufOk]
  | cons b tl =>
    simp only [bufOk, HDR_LEN, MAX_LEN, Bool.and_eq_true, Bool.or_eq_true, decide_eq_true_eq, beq_iff_eq,
      reduceCtorEq, false_or, List.head?_cons, Option.some.injEq]
    exact and_congr_right fun _ => by omega

/-- An empty buffer satisfies the invariant, whether or not the run has begun. -/
theorem inv_of_buf_nil {s : State} (h : s.buf = []) : s.Inv := fun _ => by rw [h]; rfl

/-- Every operation keeps the invariant: a PUSH leaves what a scan leaves, RESET and FLUSH an empty buffer, and no other
operation touches it. -/
theorem exec_keeps_inv {i : Instr} {s t : State} (hs : s.Inv) (h : exec i s = .next t) : t.Inv := by
  obtain ⟨o, rfl⟩ | ⟨b, -, -, rfl⟩ | ⟨-, rfl⟩ | ⟨-, -, rfl⟩ := exec_next_cases h
  · exact hs
  · exact fun _ => scan_rest_ok _ _
  · exact inv_of_buf_nil rfl
  · exact inv_of_buf_nil rfl

/-- A step is idle, or performs the oldest pending operation. -/
theorem step_keeps_inv {s t : State} (hs : s.Inv) (h : step s = .next t) : t.Inv := by
  cases hp : s.pending with
  | nil =>
    rw [step_idle hp] at h
    cases h
    exact hs
  | cons i rest =>
    rw [step_pending hp] at h
    exact exec_keeps_inv (s := { s with pending := rest }) hs h

/-- RESET and FLUSH leave an empty buffer. -/
theorem exec_reset_or_flush_buf {s t : State} (h : exec .reset s = .next t ∨ exec .flush s = .next t) :
    t.buf = [] := by
  obtain h | h := h
  · cases h
    rfl
  · rw [(afterReset_next h).2]
    rfl

/-- Settles O32: what a scan leaves satisfies R11, and so does the empty buffer of RESET and FLUSH. -/
theorem everyStepKeepsTheBufferInvariant : Obligations.EveryStepKeepsTheBufferInvariant :=
  ⟨fun _ _ hs h => step_keeps_inv hs h, fun _ _ h => inv_of_buf_nil (exec_reset_or_flush_buf h),
    fun _ => forall_congr' fun _ => bufOk_iff⟩

/-- R13's table, each phase by its condition, from any buffer. -/
theorem phaseOf_iff (buf : List Byte) :
    (phaseOf buf = .scan ↔ buf.length = 0) ∧
    (phaseOf buf = .header ↔ 1 ≤ buf.length ∧ buf.length < 7) ∧
    (phaseOf buf = .data ↔ 7 ≤ buf.length ∧ buf.length < 7 + (buf.getD 6 0).toNat) ∧
    (phaseOf buf = .check ↔ 7 + (buf.getD 6 0).toNat ≤ buf.length) := by
  simp only [phaseOf, HDR_LEN]
  split_ifs <;> simp only [true_iff, false_iff] <;> omega

/-- Where a buffer starts and how long it is, under the invariant; an empty one counts as short of its length byte. -/
theorem bufOk_shape {buf : List Byte} (h : bufOk buf = true) :
    (buf = [] ∨ buf.getD 0 0 = SYNC) ∧
    (buf.length < 7 ∨ (7 ≤ buf.length ∧ (buf.getD 6 0).toNat ≤ 8 ∧ buf.length < 8 + (buf.getD 6 0).toNat)) := by
  obtain rfl | ⟨hhead, hlength⟩ := bufOk_iff.mp h
  · exact ⟨.inl rfl, .inl (by decide)⟩
  · obtain ⟨tl, rfl⟩ := List.head?_eq_some_iff.mp hhead
    exact ⟨.inr rfl, hlength⟩

/-- Settles O33: R13's table, where the invariant bounds a buffer that has its length byte. -/
theorem bufferIsBounded : Obligations.BufferIsBounded := by
  intro s hb hs
  obtain ⟨hstart, hlength⟩ := bufOk_shape (hs hb)
  obtain ⟨hscan, hheader, hdata, hcheck⟩ := phaseOf_iff s.buf
  refine ⟨bufOk_length (hs hb), hstart, ?_, hscan, hheader, hdata, ?_⟩
  · rw [hdata, hcheck]
    omega
  · rw [hcheck]
    omega

/-! ## What no operation writes, reset, and the idle step (R12, R19, R21, R22) -/

/-- Settles O14, from what the operations can do to a state. -/
theorem parametersAreNeverWritten : Obligations.ParametersAreNeverWritten := by
  intro i s t h
  obtain ⟨o, rfl⟩ | ⟨b, -, -, rfl⟩ | ⟨-, rfl⟩ | ⟨-, -, rfl⟩ := exec_next_cases h
  all_goals exact ⟨rfl, rfl⟩

/-- Settles O16: it is the idle step. -/
theorem nothingPendingChangesNothing : Obligations.NothingPendingChangesNothing :=
  fun _ h => step_idle h

/-- Settles O17: R22's values, and the phase and the invariant of an empty buffer. -/
theorem resetStateIsEmpty : Obligations.ResetStateIsEmpty :=
  ⟨State.reset_buf, State.reset_out, (phaseOf_iff _).1.mpr rfl, inv_of_buf_nil State.reset_buf⟩

/-! ## The items of a PUSH (R16, R42, R91) -/

/-- A PUSH that completes outputs the items of the scan of the buffer with the byte behind it (R80), in a run that has
begun (R190). -/
theorem exec_push_next {s t : State} {b : Byte} (h : exec (.push b) s = .next t) :
    t.out.itemList = (scan s.cfg (s.buf ++ [b])).1 ∧ s.begun = true := by
  obtain ⟨hb, rfl⟩ := afterReset_next h
  exact ⟨rfl, hb⟩

/-- Every frame a PUSH outputs has the length of its payload, at most 8, its own identifier fields and its own result. -/
theorem exec_push_frame {s t : State} {b : Byte} {f : Frame} {i : Ident} {r : Result}
    (h : exec (.push b) s = .next t) (hf : Item.fr f i r ∈ t.out.itemList) :
    f.len = f.payload.length ∧ f.len ≤ 8 ∧ i = iddec s.par.contUsed f.id ∧
      r = decodePayload s.cfg i.commandCode f.payload := by
  rw [(exec_push_next h).1] at hf
  obtain ⟨hlen, h8, rfl, hr⟩ := scan_frame hf
  exact ⟨hlen, h8, rfl, hr⟩

/-- Settles O35: the operands of IDDEC and DECODE lie in their domains. -/
theorem frameItemsAreCoherent : Obligations.FrameItemsAreCoherent := by
  intro s t b f i r h hf
  obtain ⟨hlen, h8, rfl, rfl⟩ := exec_push_frame h hf
  refine ⟨hlen, h8, ?_, inDomain_pos (by simp only [MAX_LEN, decide_eq_true_eq]; omega) _ _⟩
  simp only [exec, execIddec]
  rw [inDomain_pos (decide_eq_true f.id.isLt), BitVec.ofNat_toNat, BitVec.setWidth_eq]
  rfl

/-- Every item of a scan accounts for a byte at least (R91). -/
theorem scan_items_length_le (cfg : Config) (xs : List Byte) : (scan cfg xs).1.length ≤ xs.length := by
  induction xs using scan_induct cfg with
  | wait bs h => simp [scan_wait h]
  | reject b tl e h ih =>
    rw [scan_reject h]
    simpa using ih
  | envelope bs len h ih =>
    obtain ⟨-, -, -, -, hn, -⟩ := headOf_envelope h
    rw [scan_envelope h]
    simp only [List.length_drop, List.length_cons] at ih ⊢
    omega

/-- A PUSH scans at most 16 bytes, so it outputs at most 16 items (R10, R91). -/
theorem exec_push_itemList_length_le {s t : State} {b : Byte} (hs : s.Inv) (h : exec (.push b) s = .next t) :
    t.out.itemList.length ≤ 16 := by
  obtain ⟨hitems, hb⟩ := exec_push_next h
  have hbuf := bufOk_length (hs hb)
  have hscan := scan_items_length_le s.cfg (s.buf ++ [b])
  rw [List.length_append, List.length_singleton] at hscan
  rw [hitems]
  omega

/-- The frame of a PUSH that outputs just one. -/
theorem exec_push_single_frame {s t : State} {b : Byte} {f : Frame} {i : Ident} {r : Result}
    (h : exec (.push b) s = .next t) (hf : framesOf t.out.itemList = [(f, i, r)]) :
    f.len = f.payload.length ∧ f.len ≤ 8 ∧ i = iddec s.par.contUsed f.id ∧
      r = decodePayload s.cfg i.commandCode f.payload :=
  exec_push_frame h (mem_framesOf.mp (by rw [hf]; exact List.mem_singleton_self _))

/-! ## What the ports show of a step (R21) -/

theorem portOut_frameValid_iff (o : Output) : (portOut o).frameValid = true ↔ framesOf o.itemList ≠ [] := by
  cases hf : framesOf o.itemList <;> simp [portOut, hf]

/-- Byte k of the data port is byte k of the payload, zero where it has none (R21, R34). -/
theorem u64le_extractLsb' (pay : List Byte) {k : Nat} (hk : k < 8) :
    (BitVec.ofNat 64 (u64le pay 0)).extractLsb' (8 * k) 8 = pay.getD k 0 := by
  apply BitVec.eq_of_getLsbD_eq
  intro j hj
  have hdiv : (8 * k + j) / 8 = k := by omega
  have hmod : (8 * k + j) % 8 = j := by omega
  have hlt : 8 * k + j < 64 := by omega
  simp only [BitVec.getLsbD_extractLsb', BitVec.getLsbD_ofNat, u64le, memRead_testBit, hdiv, hmod, hlt, hj,
    Nat.zero_add, Nat.reduceMul, decide_true, Bool.true_and]

theorem telemetryZero_of_no_frame {o : Output} (h : framesOf o.itemList = []) : TelemetryZero o := by
  simp [TelemetryZero, portField, portFlag, portBytes, portResult_none h]

/-- The tag of `InsufficientData` is its own (R172). -/
theorem eq_insufficientData_of_tag {r : Result} (h : r.tag = 12) : ∃ c q n, r = .insufficientData c q n := by
  cases r with
  | insufficientData c q n => exact ⟨c, q, n, rfl⟩
  | _ => simp [Result.tag] at h

/-- `InsufficientData` has no number, no indication and no byte list to show (R112). -/
theorem telemetryZero_of_tag {o : Output} {r : Result} (hr : portResult o = some r) (ht : r.tag = 12) :
    TelemetryZero o := by
  obtain ⟨c, q, n, rfl⟩ := eq_insufficientData_of_tag ht
  simp [TelemetryZero, portField, portFlag, portBytes, hr, Result.rawOf, Result.raws, Result.flagOf, Result.bytesOf]

/-- Counting a list's events of a kind is counting its items that are one. -/
theorem countP_eventsOf (p : Event → Bool) (l : List Item) : (eventsOf l).countP p = eventsLike p l := by
  induction l with
  | nil => rfl
  | cons x xs ih =>
    cases x with
    | fr f i r => simpa [eventsOf, eventsLike] using ih
    | ev e =>
      simp only [eventsOf, eventsLike, List.filterMap_cons, List.countP_cons] at ih ⊢
      rw [ih]

/-- An event count of a list of at most 31 items is the number of items that are an event with that code. -/
theorem eventCount_eq_eventsLike {l : List Item} (h : l.length ≤ 31) {code : Nat} {p : Event → Bool}
    (hp : ∀ e, (eventCode e == code) = p e) : (eventCount l code).toNat = eventsLike p l := by
  rw [eventCount_toNat h, funext hp, countP_eventsOf]

/-- Settles O58: a frame has at most 8 bytes and a step at most 16 items, so no port wraps. -/
theorem portsShowTheStep : Obligations.PortsShowTheStep := by
  intro s t b hs h
  have h31 : t.out.itemList.length ≤ 31 := (exec_push_itemList_length_le hs h).trans (by decide)
  obtain ⟨hresync, hchk, hlen⟩ := portOut_counts t.out
  refine ⟨portOut_frameValid_iff _, ?noFrame, ?frame, ?resync, ?chk, ?len⟩
  case noFrame =>
    intro hf
    have hz := telemetryZero_of_no_frame hf
    simp [portOut, hf, hz, portCode, portRequired, portActual, portResult_none hf]
  case frame =>
    intro f i r hf
    obtain ⟨-, h8, -, -⟩ := exec_push_single_frame h hf
    have ht : r.tag = 12 → TelemetryZero t.out := telemetryZero_of_tag (portResult_frame hf)
    have hl : (BitVec.ofNat 4 f.len).toNat = f.len := Nat.mod_eq_of_lt (by omega)
    have hd := fun k (hk : k < 8) => u64le_extractLsb' f.payload hk
    simp only [portOut, hf, List.head?_cons, true_and]
    exact ⟨hl, hd, ht⟩
  case resync =>
    rw [hresync]
    exact eventCount_eq_eventsLike h31 fun e => by cases e <;> rfl
  case chk =>
    rw [hchk]
    exact eventCount_eq_eventsLike h31 fun e => by cases e <;> rfl
  case len =>
    rw [hlen]
    exact eventCount_eq_eventsLike h31 fun e => by cases e <;> rfl

/-! ## What the ports show of a result (R18, R21) -/

/-- A code without a required length has no layout (R59, R60 to R71). -/
theorem layoutOf_eq_nil {c : Byte} (h : reqLen c = 0) : layoutOf c = [] := by
  unfold layoutOf
  repeat' refine iteInduction (motive := (· = [])) (fun hc => by subst hc; cases h) (fun _ => ?_)
  rfl

/-- The numbers of a body are what its layout reads, entry by entry, and behind them what is derived from those: a field
stores what its read assembles (R54, R60 to R69). -/
theorem decodeBody_raws (cfg : Config) {c : Byte} (pay : List Byte) (hc : 0 < reqLen c) :
    ∃ derived, (decodeBody cfg c pay).raws =
      (layoutOf c).map (fun l => (l.field, l.read cfg.limitISigned pay)) ++ derived := by
  obtain rfl | rfl | rfl | rfl | rfl | rfl | rfl | rfl | rfl := reqLen_pos hc
  · refine ⟨[], ?_⟩
    show Result.raws (.limits _) = _
    simp only [Result.raws, decLimits, toNat_u16le, limitCurrent_value]
    rfl
  · refine ⟨[], ?_⟩
    show Result.raws (.socSoh _) = _
    simp only [Result.raws, decSocSoh, toNat_u16le]
    rfl
  · refine ⟨[(.power, (decPackVI pay).power.toNat)], ?_⟩
    show Result.raws (.packVI _) = _
    simp only [Result.raws, decPackVI, toNat_u16le, toInt_s16]
    rfl
  · refine ⟨[(.deltaV, (decCellV pay).delta.toInt)], ?_⟩
    show Result.raws (.cellV _) = _
    simp only [Result.raws, decCellV, toNat_u16le, toNat_u8]
    rfl
  · refine ⟨[(.deltaT, (decCellT pay).delta.toInt)], ?_⟩
    show Result.raws (.cellT _) = _
    simp only [Result.raws, decCellT, toNat_u8, toInt_s16]
    rfl
  · refine ⟨[], ?_⟩
    show Result.raws (.opStatus _) = _
    simp only [Result.raws, decOpStatus, toNat_u8]
    rfl
  · refine ⟨[], ?_⟩
    show Result.raws (.cycles _) = _
    simp only [Result.raws, decCycles, toNat_u16le]
    rfl
  · refine ⟨[], ?_⟩
    show Result.raws (.energy _) = _
    simp only [Result.raws, decEnergy, toNat_u32le]
    rfl
  · refine ⟨[(.count, (alarmDec pay).count), (.maxSeverity, (alarmDec pay).maxSeverity)], ?_⟩
    show Result.raws (.alarm _) = _
    simp only [Result.raws, alarmDec, toNat_u64le]
    rfl

/-- A layout names no field twice. -/
theorem layoutOf_fields_nodup (c : Byte) : ((layoutOf c).map (·.field)).Nodup := by
  unfold layoutOf
  repeat' split
  all_goals decide

/-- Looking up a layout's field among values listed in the layout's order finds the field's own value. -/
theorem find?_layout_field {α : Type} {L : List FieldLayout} (hL : (L.map (·.field)).Nodup) (g : FieldLayout → α)
    (rest : List (Field × α)) {l : FieldLayout} (hl : l ∈ L) :
    (L.map (fun x => (x.field, g x)) ++ rest).find? (fun p => p.1 == l.field) = some (l.field, g l) := by
  induction L with
  | nil => cases hl
  | cons x xs ih =>
    obtain ⟨hx, hxs⟩ := List.nodup_cons.mp hL
    obtain rfl | hl := List.mem_cons.mp hl
    · simp
    · have hne : x.field ≠ l.field := fun he => hx (List.mem_map.mpr ⟨l, hl, he.symm⟩)
      simpa [hne] using ih hxs hl

/-- A result of a payload that is long enough holds what its layout reads (R36, R54). -/
theorem decodePayload_rawOf_layout (cfg : Config) {c : Byte} {pay : List Byte} {l : FieldLayout} (h : l ∈ layoutOf c)
    (hreq : reqLen c ≤ pay.length) :
    (decodePayload cfg c pay).rawOf l.field = some (l.read cfg.limitISigned pay) := by
  have hc : 0 < reqLen c := Nat.pos_of_ne_zero fun h0 => by simp [layoutOf_eq_nil h0] at h
  obtain ⟨derived, hraws⟩ := decodeBody_raws cfg pay hc
  rw [decodePayload, requireLen_enough hreq, Result.rawOf, hraws, find?_layout_field (layoutOf_fields_nodup c) _ _ h]
  rfl

theorem decodeBody_ne_insufficientData (cfg : Config) (c : Byte) (pay : List Byte) (k : Byte) (q n : Nat) :
    decodeBody cfg c pay ≠ .insufficientData k q n := by
  unfold decodeBody
  repeat' refine iteInduction (motive := (· ≠ Result.insufficientData k q n)) (fun _ => nofun) (fun _ => ?_)
  exact nofun

/-- `InsufficientData` is DECODE's answer to a payload below the required length, which it names (R112). -/
theorem decodePayload_insufficientData {cfg : Config} {c k : Byte} {pay : List Byte} {q n : Nat}
    (h : decodePayload cfg c pay = .insufficientData k q n) :
    k = c ∧ q = reqLen c ∧ n = pay.length ∧ pay.length < reqLen c := by
  by_cases hlt : pay.length < reqLen c
  · rw [decodePayload, requireLen_short hlt] at h
    cases h
    exact ⟨rfl, rfl, rfl, hlt⟩
  · rw [decodePayload, requireLen_enough (Nat.not_lt.mp hlt)] at h
    exact absurd h (decodeBody_ne_insufficientData cfg c pay k q n)

theorem portField_eq {o : Output} {r : Result} (hr : portResult o = some r) (f : Field) :
    portField o f = (r.rawOf f).getD 0 := by
  rw [portField, hr]; rfl

/-- An alarm's active list is the ascending list of the positions set in the mask (R150). -/
theorem alarmDec_active_spec (pay : List Byte) : (alarmDec pay).active.Pairwise (· < ·) ∧
    ∀ k, k ∈ (alarmDec pay).active ↔ k < 64 ∧ (alarmDec pay).mask.toNat.testBit k = true :=
  ⟨activeBits_ascending _, fun _ => mem_activeBits⟩

/-- Settles O59: the result is DECODE's of the frame's own payload, which says what a layout reads, what an alarm's list
is and how long `InsufficientData`'s lengths can be. -/
theorem portsShowTheResult : Obligations.PortsShowTheResult := by
  intro s t b f i r hs h hf
  obtain ⟨-, -, -, hdec⟩ := exec_push_single_frame h hf
  have hr : portResult t.out = some r := portResult_frame hf
  have hfield := portField_eq hr
  refine ⟨?layout, ?power, ?deltaV, ?deltaT, ?alarm, ?opStatus, ?text, ?opaquePayload, ?raw, ?insufficientData⟩
  case layout =>
    intro hreq l hl
    rw [hfield, hdec, decodePayload_rawOf_layout s.cfg hl hreq]
    rfl
  case power | deltaV | deltaT =>
    rintro x rfl
    exact hfield _
  case alarm =>
    rintro x rfl
    obtain rfl := decodePayload_alarm hdec.symm
    obtain ⟨hasc, hmem⟩ := alarmDec_active_spec f.payload
    have hmask : portField t.out .mask = (alarmDec f.payload).mask.toNat := hfield _
    rw [hmask]
    exact ⟨rfl, hfield _, hfield _, hasc, hmem⟩
  case opStatus =>
    rintro x rfl
    simp [portFlag, hr, Result.flagOf]
  case text | opaquePayload =>
    rintro bs rfl
    simp [portBytes, hr, Result.bytesOf]
  case raw =>
    rintro c bs rfl
    simp [portCode, portBytes, hr, Result.codeOf, Result.bytesOf]
  case insufficientData =>
    rintro c q n rfl
    obtain ⟨-, rfl, rfl, hlt⟩ := decodePayload_insufficientData hdec.symm
    have h8 : reqLen i.commandCode ≤ 8 := reqLen_le _
    simp only [portCode, portRequired, portActual, hr, Option.bind_some, Result.codeOf, Result.lengthsOf,
      Option.getD_some, BitVec.toNat_ofNat, true_and]
    omega

/-! ## Which step the port inputs ask for (R21, R190) -/

/-- Settles O57: the inputs' operation is the one the cycle performs, and its effect is that operation's. -/
theorem portPriority : Obligations.PortPriority := by
  rintro s ⟨rst, flush, inValid, inByte⟩
  refine ⟨?rst, ?flush, ?inValid, ?none⟩
  case rst =>
    rintro rfl
    have hp := portStep_some (p := ⟨true, flush, inValid, inByte⟩) rfl s
    exact ⟨hp, hp⟩
  case flush =>
    rintro rfl rfl
    have hp := portStep_some (p := ⟨false, true, inValid, inByte⟩) rfl s
    exact ⟨hp, fun hb => hp.trans (afterReset_pos hb _), fun hb => hp.trans (afterReset_neg hb _)⟩
  case inValid =>
    rintro rfl rfl rfl
    exact portStep_some rfl s
  case none =>
    rintro rfl rfl rfl
    exact portStep_none rfl s

end Sys2Proof.Proofs

/-! Proofs of the family 20_memory: what the bytes pushed behind a FLUSH give (R41, R86), and the one fate of every byte
of a scanned stream (R30). -/

namespace Sys2Proof.Proofs

open Sys2Proof.Machine

/-! ## Runs of pushed bytes (R84, R192) -/

/-- A run that begins with a step that completes: its items stand in front of those of the steps after it. -/
theorem runItems_succ {s t : State} (h : step s = .next t) (k : Nat) :
    runItems (k + 1) s = (runItems k t).map fun p => (t.out.itemList ++ p.1, p.2) := by
  simp only [runItems, h]

/-- The step that performs a pending PUSH. -/
theorem step_push {s : State} {b : Byte} {rest : List Instr} (hp : s.pending = .push b :: rest) (hb : s.begun = true) :
    step s = .next { s with
      pending := rest
      buf := (scan s.cfg (s.buf ++ [b])).2
      out := .items (scan s.cfg (s.buf ++ [b])).1 } := by
  rw [step_pending hp, exec_push (s := { s with pending := rest }) hb]

/-- The step that performs a pending FLUSH. -/
theorem step_flush {s : State} {rest : List Instr} (hp : s.pending = .flush :: rest) (hb : s.begun = true) :
    step s = .next { s with pending := rest, buf := [], out := .items [] } := by
  rw [step_pending hp]
  exact afterReset_pos (s := { s with pending := rest }) hb _

/-- Pushing the bytes of a list one at a time gives the items of the scan of the buffer with the list behind it, and
leaves its rest: each PUSH scans what the one before left with one byte more (scan_append). -/
theorem runItems_chunk {s : State} (hs : s.Inv) (hb : s.begun = true) {xs : List Byte}
    (hp : s.pending = Instr.chunk xs) :
    ∃ t, runItems xs.length s = some ((scan s.cfg (s.buf ++ xs)).1, t) ∧ t.buf = (scan s.cfg (s.buf ++ xs)).2 ∧
      t.begun = true ∧ t.par = s.par ∧ t.pending = [] := by
  induction xs generalizing s with
  | nil =>
    rw [List.append_nil, scan_of_bufOk (hs hb)]
    exact ⟨s, rfl, rfl, hb, rfl, hp⟩
  | cons b xs ih =>
    have hstep := step_push hp hb
    obtain ⟨t, hrun, hbuf, hbegun, hpar, hpend⟩ := ih (step_keeps_inv hs hstep) hb rfl
    have hscan := scan_append s.cfg xs (s.buf ++ [b])
    rw [List.append_assoc, List.singleton_append] at hscan
    refine ⟨t, ?_, ?_, hbegun, hpar, hpend⟩
    · rw [List.length_cons, runItems_succ hstep, hrun, hscan]
      rfl
    · rw [hbuf, hscan]

/-- A FLUSH outputs nothing and empties the buffer, whatever it held, and the pushed bytes run on from there. -/
theorem runItems_flush_chunk {s : State} (hb : s.begun = true) {xs : List Byte}
    (hp : s.pending = .flush :: Instr.chunk xs) :
    ∃ t, runItems (xs.length + 1) s = some ((scan s.cfg xs).1, t) ∧ t.buf = (scan s.cfg xs).2 := by
  have hstep := step_flush hp hb
  obtain ⟨t, hrun, hbuf, -⟩ :=
    runItems_chunk (s := { s with pending := Instr.chunk xs, buf := [], out := .items [] }) (inv_of_buf_nil rfl) hb rfl
  refine ⟨t, ?_, hbuf⟩
  rw [runItems_succ hstep, hrun]
  rfl

/-- Settles O20: the FLUSH and the PUSH steps are what the host has issued. -/
theorem flushForgetsEarlierBytes : Obligations.FlushForgetsEarlierBytes :=
  fun s xs hb => runItems_flush_chunk (s := s.given (.flush :: Instr.chunk xs)) hb rfl

/-! ## The stretches of a scanned stream (R30) -/

/-- The event of a rejected head accounts for the byte it discards. -/
theorem spells_of_headOf_reject {cfg : Config} {b : Byte} {tl : List Byte} {e : Event}
    (h : headOf cfg.chk (b :: tl) = .reject e) : (Item.ev e).spells cfg [b] := by
  obtain ⟨b', tl', heq, hcases⟩ := headOf_reject h
  obtain ⟨rfl, rfl⟩ := List.cons.inj heq
  obtain ⟨hne, rfl⟩ | ⟨rfl, -, hlen, rfl⟩ | ⟨rfl, -, -, -, rfl⟩ := hcases
  · exact ⟨hne, rfl⟩
  · exact ⟨hlen, rfl⟩
  · rfl

/-- The item of a valid envelope accounts for the whole envelope. -/
theorem spells_of_headOf_envelope {cfg : Config} {bs : List Byte} {len : Nat}
    (h : headOf cfg.chk bs = .envelope len) :
    (envelopeItem cfg (bs.take (8 + len))).spells cfg (bs.take (8 + len)) := by
  obtain ⟨-, -, -, -, hn, -⟩ := headOf_envelope h
  obtain ⟨hlen, -⟩ := mkFrame_len h cfg.idOrder
  refine ⟨?_, ?_, rfl⟩
  · rw [headOf_take h, hlen]
  · rw [hlen, List.length_take_of_le hn]

/-- A scanned stream is the stretches of its items, laid end to end, and the bytes left over. -/
theorem scan_segments (cfg : Config) (xs : List Byte) : ∃ segs : List (List Byte),
    List.Forall₂ (fun it seg => it.spells cfg seg) (scan cfg xs).1 segs ∧ xs = segs.flatten ++ (scan cfg xs).2 := by
  induction xs using scan_induct cfg with
  | wait bs h =>
    rw [scan_wait h]
    exact ⟨[], .nil, rfl⟩
  | reject b tl e h ih =>
    obtain ⟨segs, hspells, htl⟩ := ih
    rw [scan_reject h]
    refine ⟨[b] :: segs, .cons (spells_of_headOf_reject h) hspells, ?_⟩
    rw [List.flatten_cons, List.append_assoc, ← htl, List.singleton_append]
  | envelope bs len h ih =>
    obtain ⟨segs, hspells, hdrop⟩ := ih
    rw [scan_envelope h]
    refine ⟨bs.take (8 + len) :: segs, .cons (spells_of_headOf_envelope h) hspells, ?_⟩
    rw [List.flatten_cons, List.append_assoc, ← hdrop, List.take_append_drop]

/-- Settles O34: the stretches of the items, and what a scan leaves satisfies R11. -/
theorem everyByteHasOneFate : Obligations.EveryByteHasOneFate := by
  intro cfg xs
  obtain ⟨segs, hspells, hxs⟩ := scan_segments cfg xs
  exact ⟨segs, hspells, hxs, scan_rest_ok cfg xs⟩

end Sys2Proof.Proofs

/-! Proofs of the family 30_encoding: decode and encode agree in both directions (R50, R53, R81, R87), the command code
alone selects the row (R53), and a result's fields follow its code's layout (R54, R60 to R73). -/

namespace Sys2Proof.Proofs

open Sys2Proof.Machine Sys2Proof.Laws Sys2Proof.Laws.RowSelected

/-! ## An envelope as the framer reads it (R50, R81, R87) -/

/-- The id field has four bytes, in either byte order. -/
theorem idBytes_shape (o : IdOrder) (w : BitVec 32) : ∃ b2 b3 b4 b5, idBytes o w = [b2, b3, b4, b5] := by
  cases o <;> exact ⟨_, _, _, _, rfl⟩

/-- The id field that MKFRAME reads is written back as the four bytes it was read from, in either byte order (R35). -/
theorem idBytes_id32 (o : IdOrder) (b0 b1 b2 b3 b4 b5 : Byte) (tl : List Byte) :
    idBytes o (id32 o (b0 :: b1 :: b2 :: b3 :: b4 :: b5 :: tl)) = [b2, b3, b4, b5] := by
  cases o <;>
    simp only [idBytes, id32, List.getD_cons_succ, List.getD_cons_zero, List.cons.injEq, and_true] <;>
    refine ⟨?_, ?_, ?_, ?_⟩
  all_goals
    apply BitVec.eq_of_getLsbD_eq; intro i hi
    interval_cases i <;> simp

/-- A legal payload length fits in the length byte (R50). -/
theorem toNat_lengthByte {n : Nat} (h : n ≤ MAX_LEN) : (BitVec.ofNat 8 n).toNat = n := by
  rw [BitVec.toNat_ofNat]
  exact Nat.mod_eq_of_lt (Nat.lt_of_le_of_lt h (by decide))

theorem length_envelopeOf (cfg : Config) (t : Byte) (w : BitVec 32) (pay : List Byte) :
    (envelopeOf cfg t w pay).length = 8 + pay.length := by
  obtain ⟨b2, b3, b4, b5, hid⟩ := idBytes_shape cfg.idOrder w
  simp only [envelopeOf, hid, List.length_cons, List.length_append, List.length_nil]
  omega

/-- A body of the length its own length byte says, between SYNC and its checksum, passes the framer's tests (R80, R82). -/
theorem headOf_sync_body_chk {chk : List Byte → Byte} {body : List Byte} {len : Nat} (hbody : body.length = 6 + len)
    (hlen : (body.getD 5 0).toNat = len) (h : len ≤ MAX_LEN) :
    headOf chk (SYNC :: (body ++ [chk body])) = .envelope len := by
  refine headOf_eq_envelope ?_ h ?_ ?_
  · rw [List.getD_cons_succ, List.getD_append _ _ _ _ (by omega), hlen]
  · simp only [List.length_cons, List.length_append, List.length_nil]
    omega
  · rw [show 7 + len = body.length + 1 by omega, ← hbody, List.take_left, List.getD_cons_succ,
      List.getD_append_right _ _ _ _ (Nat.le_refl _), Nat.sub_self, List.getD_cons_zero]

/-- The envelope of a legal payload passes the framer's tests, whatever its id field (R80, R82). -/
theorem headOf_envelopeOf (cfg : Config) (t : Byte) (w : BitVec 32) {pay : List Byte} (h : pay.length ≤ MAX_LEN) :
    headOf cfg.chk (envelopeOf cfg t w pay) = .envelope pay.length := by
  obtain ⟨b2, b3, b4, b5, hid⟩ := idBytes_shape cfg.idOrder w
  simp only [envelopeOf, hid]
  refine headOf_sync_body_chk ?_ (toNat_lengthByte h) h
  simp only [List.cons_append, List.nil_append, List.length_cons]
  omega

/-- MKFRAME reads from an envelope the type, identifier and payload written into it (R81). -/
theorem mkFrame_envelopeOf (cfg : Config) (t : Byte) (w : BitVec 32) {pay : List Byte} (h : pay.length ≤ MAX_LEN) :
    mkFrame cfg.idOrder (envelopeOf cfg t w pay) = ⟨t, w.setWidth 29, pay.length, pay⟩ := by
  have hid32 : id32 cfg.idOrder (envelopeOf cfg t w pay) = w := by
    simp only [envelopeOf, List.cons_append, List.append_assoc]
    exact id32_idBytes _ _ _ _ _
  obtain ⟨b2, b3, b4, b5, hid⟩ := idBytes_shape cfg.idOrder w
  simp only [mkFrame, hid32]
  simp only [envelopeOf, hid, HDR_LEN, List.cons_append, List.nil_append, List.getD_cons_succ, List.getD_cons_zero,
    List.drop_succ_cons, List.drop_zero, toNat_lengthByte h, List.take_left]

/-- The envelope of a legal payload decodes to the row of its frame, and the bytes behind it are left (R53, R80). -/
theorem decode_envelopeOf (cfg : Config) (t : Byte) (w : BitVec 32) {pay : List Byte} (h : pay.length ≤ MAX_LEN)
    (rest : List Byte) :
    decode cfg (envelopeOf cfg t w pay ++ rest) =
      .instr (Frame.instr ⟨t, w.setWidth 29, pay.length, pay⟩) rest := by
  have hhead : headOf cfg.chk (envelopeOf cfg t w pay ++ rest) = .envelope pay.length := by
    rw [headOf_append rest (by rw [headOf_envelopeOf cfg t w h]; exact nofun), headOf_envelopeOf cfg t w h]
  simp only [decode, hhead]
  rw [← length_envelopeOf cfg t w pay, List.take_left, List.drop_left, mkFrame_envelopeOf cfg t w h]

/-! ## Decode of encode -/

/-- A command row has an encoding: the envelope of what it carries (R87). -/
theorem encode_of_carried {i : Instr} {c : Byte} {a : FrameArgs} (h : i.carried = some (c, a)) (cfg : Config) :
    encode cfg i = some (envenc cfg a.ftype (a.id c) a.payload) := by
  rw [encode, h]
  rfl

/-- Only a command row has an encoding. -/
theorem carried_of_encode {cfg : Config} {i : Instr} {bs : List Byte} (h : encode cfg i = some bs) :
    ∃ c a, i.carried = some (c, a) ∧ bs = envenc cfg a.ftype (a.id c) a.payload := by
  obtain ⟨⟨c, a⟩, hcar, rfl⟩ := Option.map_eq_some_iff.mp h
  exact ⟨c, a, hcar, rfl⟩

/-- A well-formed row of R53's map has a legal payload (R15). -/
theorem payloadOk_of_instrOfCode_wellFormed (c : Byte) (a : FrameArgs) :
    (instrOfCode c a).wellFormed = true → payloadOk a.payload = true :=
  instrOfCode_cases (P := fun _ i => i.wellFormed = true → payloadOk a.payload = true) c a
    id id id id id id id id id id id fun _ hraw => (Bool.and_eq_true_iff.mp hraw).2

/-- The payload that a well-formed command row carries is legal (R15). -/
theorem payload_length_of_carried {i : Instr} {c : Byte} {a : FrameArgs} (hw : i.wellFormed = true)
    (h : i.carried = some (c, a)) : a.payload.length ≤ MAX_LEN := by
  rw [← instrOfCode_carried hw h] at hw
  exact of_decide_eq_true (payloadOk_of_instrOfCode_wellFormed c a hw)

/-- Settles O2: the frame read from the envelope is the row's own, with its code and operands. -/
theorem decodeOfEncodeIsTheInstruction : Obligations.DecodeOfEncodeIsTheInstruction := by
  intro cfg i bs rest hw henc
  obtain ⟨c, a, hcar, rfl⟩ := carried_of_encode henc
  have hframe : (⟨a.ftype, ((a.id c).setWidth 32).setWidth 29, a.payload.length, a.payload⟩ : Frame) = a.frame c := by
    rw [BitVec.setWidth_setWidth_of_le _ (by decide), BitVec.setWidth_eq]
    rfl
  rw [envenc, decode_envelopeOf cfg _ _ (payload_length_of_carried hw hcar), hframe, Frame.instr,
    FrameArgs.frame_code, FrameArgs.frame_args, instrOfCode_carried hw hcar]

/-! ## Encode of decode -/

/-- What decodes to an instruction starts with a valid envelope, whose frame's row it is (R80, R53). -/
theorem decode_instr {cfg : Config} {bs rest : List Byte} {i : Instr} (h : decode cfg bs = .instr i rest) :
    ∃ len, headOf cfg.chk bs = .envelope len ∧ i = (mkFrame cfg.idOrder (bs.take (8 + len))).instr ∧
      rest = bs.drop (8 + len) := by
  unfold decode at h
  split at h
  · cases h
  · cases h
  · next len hhead =>
    obtain ⟨rfl, rfl⟩ := Decoded.instr.inj h
    exact ⟨len, hhead, rfl, rfl⟩

/-- A list as long as an envelope's header has the header's bytes in front (R50). -/
theorem exists_header : ∀ {bs : List Byte}, 7 ≤ bs.length →
    ∃ b0 b1 b2 b3 b4 b5 b6 tl, bs = b0 :: b1 :: b2 :: b3 :: b4 :: b5 :: b6 :: tl
  | b0 :: b1 :: b2 :: b3 :: b4 :: b5 :: b6 :: tl, _ => ⟨b0, b1, b2, b3, b4, b5, b6, tl, rfl⟩

/-- The bytes of a valid envelope are the envelope around what is read from them (R50, R81). -/
theorem take_eq_envelopeOf {cfg : Config} {bs : List Byte} {len : Nat} (h : headOf cfg.chk bs = .envelope len) :
    bs.take (8 + len) = envelopeOf cfg (bs.getD 1 0) (id32 cfg.idOrder bs) ((bs.drop HDR_LEN).take len) := by
  obtain ⟨tl, rfl, hlen, -, hn, hchk⟩ := headOf_envelope h
  obtain ⟨b0, b1, b2, b3, b4, b5, b6, data, hbs⟩ := exists_header (bs := SYNC :: tl) (by omega)
  obtain ⟨rfl, rfl⟩ := List.cons.inj hbs
  simp only [List.length_cons] at hn
  have hb6 : BitVec.ofNat 8 len = b6 := by
    rw [hlen]
    exact (BitVec.ofNat_toNat 8 b6).trans (BitVec.setWidth_eq b6)
  have hlast : data.take (len + 1) =
      data.take len ++ [cfg.chk (b1 :: b2 :: b3 :: b4 :: b5 :: b6 :: data.take len)] := by
    rw [show 6 + len = len + 6 by omega, show 7 + len = len + 7 by omega] at hchk
    simp only [List.getD_cons_succ, List.take_succ_cons] at hchk
    rw [← hchk, List.getD_eq_getElem _ _ (by omega), List.take_concat_get']
  have hpay : (data.take len).length = len := List.length_take_of_le (by omega)
  rw [show 8 + len = (len + 1) + 7 by omega]
  simp only [List.take_succ_cons, hlast, envelopeOf, idBytes_id32, HDR_LEN, List.drop_succ_cons, List.drop_zero, hpay, hb6,
    List.getD_cons_succ, List.getD_cons_zero, List.cons_append, List.nil_append]

/-- A valid envelope whose id field has no unused bit set is ENVENC of its frame (R87, R81). -/
theorem take_eq_envenc {cfg : Config} {bs : List Byte} {len : Nat} {f : Frame} (h : headOf cfg.chk bs = .envelope len)
    (hid : (id32 cfg.idOrder bs).toNat < 2 ^ 29) (hf : mkFrame cfg.idOrder (bs.take (8 + len)) = f) :
    bs.take (8 + len) = envenc cfg f.ftype f.id f.payload := by
  have hshape := take_eq_envelopeOf h
  have hpay : ((bs.drop HDR_LEN).take len).length ≤ MAX_LEN := by
    obtain ⟨-, -, -, h8, -⟩ := headOf_envelope h
    exact (List.length_take_le _ _).trans h8
  have hw : ((id32 cfg.idOrder bs).setWidth 29).setWidth 32 = id32 cfg.idOrder bs := by
    apply BitVec.eq_of_toNat_eq
    rw [BitVec.toNat_setWidth, BitVec.toNat_setWidth, Nat.mod_eq_of_lt hid, Nat.mod_eq_of_lt (by omega)]
  rw [hshape, mkFrame_envelopeOf _ _ _ hpay] at hf
  subst hf
  rw [envenc, hw, hshape]

/-- The row of a frame is encoded as ENVENC of the frame (R87). -/
theorem encode_frame_instr (cfg : Config) {f : Frame} (h : f.len = f.payload.length) :
    encode cfg f.instr = some (envenc cfg f.ftype f.id f.payload) := by
  have hid : f.args.id f.code = f.id := congrArg Frame.id (Frame.args_frame h)
  rw [Frame.instr, encode_of_carried (carried_instrOfCode _ _), hid]
  rfl

/-- Settles O3: the decoded row is that of the frame read from the envelope, so its encoding is that envelope. -/
theorem decodedBytesAreTheEncoding : Obligations.DecodedBytesAreTheEncoding := by
  intro cfg bs rest i h
  obtain ⟨len, hhead, rfl, rfl⟩ := decode_instr h
  obtain ⟨hlen, hpay⟩ := mkFrame_len hhead cfg.idOrder
  obtain ⟨-, -, -, h8, -⟩ := headOf_envelope hhead
  refine ⟨instrOfCode_wellFormed _ (hpay.trans_le h8), fun hid => ?_⟩
  refine ⟨_, encode_frame_instr cfg (hlen.trans hpay.symm), ?_⟩
  rw [← take_eq_envenc hhead hid rfl, List.take_append_drop]

/-! ## The command code and the opcode table (R53) -/

/-- The named codes are those of the table's rows. -/
theorem namedCodes_eq : namedCodes = rowCodes.map (·.1) := rfl

/-- A row of R53's map has the mnemonic of the table's row for its code, whatever its operands. -/
theorem instrOfCode_mnemonic (c : Byte) (a : FrameArgs) : (instrOfCode c a).mnemonic =
    (((rowCodes.find? fun p => c == p.1).map rowFor).getD fallbackRow).mnemonic := by
  refine instrOfCode_cases (P := fun c i => i.mnemonic =
    (((rowCodes.find? fun p => c == p.1).map rowFor).getD fallbackRow).mnemonic) c a
    rfl rfl rfl rfl rfl rfl rfl rfl rfl rfl rfl fun hc => ?_
  have hnone : rowCodes.find? (fun p => c == p.1) = none := by
    rw [List.find?_eq_none]
    intro p hp he
    rw [namedCodes_eq, beq_iff_eq.mp he] at hc
    exact hc (List.mem_map_of_mem hp)
  rw [hnone]
  rfl

/-- The row that a frame's identifier selects from the table is the row of its code (R53). -/
theorem rowOf_id_mnemonic (f : Frame) : (rowOf f.id).mnemonic = f.instr.mnemonic := by
  rw [rowOf_code (c := f.code) rfl, Frame.instr, instrOfCode_mnemonic]

/-- No two rows of the table match one identifier: their codes differ. -/
theorem countP_matches_le_one (id : CanId) : opcodeRows.countP (·.matches id) ≤ 1 := by
  have hnodup : (rowCodes.map (·.1)).Nodup := by decide
  have hmatches : (fun r : OpcodeRow => r.matches id) ∘ rowFor = (fun c => c == id.extractLsb' 20 8) ∘ (·.1) := by
    funext p
    exact (matches_iff id p).trans BEq.comm
  rw [opcodeRows_eq, List.countP_map, hmatches, ← List.countP_map]
  exact List.nodup_iff_count_le_one.mp hnodup _

/-- Settles O4: the row's name depends on the code only, and it is the table's. -/
theorem commandCodeAloneSelectsTheRow : Obligations.CommandCodeAloneSelectsTheRow := by
  refine ⟨fun f g h => ?_, fun f => (rowOf_id_mnemonic f).symm, countP_matches_le_one⟩
  rw [Frame.instr, Frame.instr, instrOfCode_mnemonic, instrOfCode_mnemonic, h]

/-! ## Fields and layouts (R54, R60 to R73) -/

/-- Settles O42: a field stores what its layout entry reads. -/
theorem resultFieldsFollowTheLayout : Obligations.ResultFieldsFollowTheLayout :=
  fun cfg _ _ _ hl hreq => decodePayload_rawOf_layout cfg hl hreq

/-- The codes with a required length, which are those with a layout (R59). -/
def codesWithLength : List Byte := [0x80, 0x81, 0x82, 0x83, 0x84, 0x85, 0x86, 0x87, 0xC0]

theorem mem_codesWithLength {c : Byte} (h : 0 < reqLen c) : c ∈ codesWithLength := by
  simpa [codesWithLength] using reqLen_pos h

/-- Below the required length of a code every byte belongs to one field (R73). -/
theorem fieldsAt_of_lt {c : Byte} {off : Nat} (h : off < reqLen c) : fieldsAt c off = 1 := by
  have hfields : ∀ c ∈ codesWithLength, ∀ off < reqLen c, fieldsAt c off = 1 := by decide
  exact hfields c (mem_codesWithLength (Nat.zero_lt_of_lt h)) off h

/-- A layout's fields end at the required length. -/
theorem layout_field_end_le {c : Byte} {l : FieldLayout} (h : l ∈ layoutOf c) : l.offset + l.kind.bytes ≤ reqLen c := by
  have hends : ∀ c ∈ codesWithLength, ∀ l ∈ layoutOf c, l.offset + l.kind.bytes ≤ reqLen c := by decide
  have hc : 0 < reqLen c := Nat.pos_of_ne_zero fun h0 => by simp [layoutOf_eq_nil h0] at h
  exact hends c (mem_codesWithLength hc) l h

/-- From the required length on a byte belongs to no field (R73). -/
theorem fieldsAt_of_le {c : Byte} {off : Nat} (h : reqLen c ≤ off) : fieldsAt c off = 0 := by
  rw [fieldsAt, List.countP_eq_zero]
  intro l hl hin
  have hend := layout_field_end_le hl
  simp only [Bool.and_eq_true, decide_eq_true_eq] at hin
  omega

/-- Settles O43: a byte lies below the required length or not. -/
theorem layoutFieldsDoNotOverlap : Obligations.LayoutFieldsDoNotOverlap := by
  intro c off
  split
  · next h => exact fieldsAt_of_lt h
  · next h => exact fieldsAt_of_le (Nat.le_of_not_lt h)

/-! ## The spec's vectors -/

/-- Settles O1: the decoder is run on the four lists. -/
theorem specWordsDecode : Obligations.SpecWordsDecode := by
  unfold Obligations.SpecWordsDecode
  decide

end Sys2Proof.Proofs

/-! Proofs of the family 40_framer: PUSH and SCAN (R80, R83, R84, R91), the envelope's bytes (R81, R82, R87), and what
a pushed envelope gives back (R88, R89). -/

namespace Sys2Proof.Proofs

open Sys2Proof.Machine Sys2Proof.Claims

/-! ## The tests at the head, each by its condition (R80, R178) -/

theorem headOf_resync {chk : List Byte → Byte} {b : Byte} (h : b ≠ SYNC) (tl : List Byte) :
    headOf chk (b :: tl) = .reject (.resync b) := by
  rw [headOf, if_pos h]

theorem headOf_lenError {chk : List Byte → Byte} {tl : List Byte} (hn : 6 ≤ tl.length)
    (hlen : 8 < (tl.getD 5 0).toNat) : headOf chk (SYNC :: tl) = .reject (.lenError (tl.getD 5 0)) := by
  have h7 : ¬ (SYNC :: tl).length < HDR_LEN := by simp only [HDR_LEN, List.length_cons]; omega
  rw [headOf, if_neg (not_not.mpr rfl), if_neg h7, List.getD_cons_succ, if_pos hlen]

/-- A complete candidate is an envelope, or is rejected for its checksum. -/
theorem headOf_complete {chk : List Byte → Byte} {tl : List Byte} {len : Nat} (hlen : (tl.getD 5 0).toNat = len)
    (h8 : len ≤ 8) (hn : 7 + len ≤ tl.length) : headOf chk (SYNC :: tl) =
      if tl.getD (6 + len) 0 = chk (tl.take (6 + len)) then .envelope len else .reject .checksumMismatch := by
  have hlast : (SYNC :: tl).getD (7 + len) 0 = tl.getD (6 + len) 0 := by
    rw [show 7 + len = (6 + len) + 1 by omega, List.getD_cons_succ]
  have h7 : ¬ (SYNC :: tl).length < HDR_LEN := by simp only [HDR_LEN, List.length_cons]; omega
  have hall : ¬ (SYNC :: tl).length < 8 + len := by simp only [List.length_cons]; omega
  rw [headOf, if_neg (not_not.mpr rfl), if_neg h7, List.getD_cons_succ, hlen, if_neg (Nat.not_lt.mpr h8), if_neg hall,
    hlast, ite_not]

theorem headOf_checksumMismatch {chk : List Byte → Byte} {tl : List Byte} {len : Nat}
    (hlen : (tl.getD 5 0).toNat = len) (h8 : len ≤ 8) (hn : 7 + len ≤ tl.length)
    (hchk : tl.getD (6 + len) 0 ≠ chk (tl.take (6 + len))) : headOf chk (SYNC :: tl) = .reject .checksumMismatch := by
  rw [headOf_complete hlen h8 hn, if_neg hchk]

/-- Before its last byte a valid envelope is an incomplete candidate: a decision on fewer bytes would stand (R84). -/
theorem headOf_take_wait {chk : List Byte → Byte} {bs : List Byte} {len n : Nat}
    (h : headOf chk bs = .envelope len) (hn : n < 8 + len) : headOf chk (bs.take n) = .wait := by
  by_contra hdecided
  have hhead : headOf chk (bs.take n) = .envelope len := by
    rw [← headOf_append (bs.drop n) hdecided, List.take_append_drop, h]
  obtain ⟨-, -, -, -, hlong, -⟩ := headOf_envelope hhead
  have := List.length_take_le n bs
  omega

/-- The byte that completes an envelope behind a waiting buffer is its last one. -/
theorem length_of_headOf_append_envelope {chk : List Byte → Byte} {buf : List Byte} {b : Byte} {len : Nat}
    (hbuf : bufOk buf = true) (h : headOf chk (buf ++ [b]) = .envelope len) : (buf ++ [b]).length = 8 + len := by
  obtain ⟨-, -, -, -, hn, -⟩ := headOf_envelope h
  have hlt : buf.length < 8 + len := by
    by_contra hge
    have hhead := headOf_take h
    rw [List.take_append_of_le_length (Nat.not_lt.mp hge)] at hhead
    have hwait := headOf_wait_iff (chk := chk).mpr hbuf
    rw [← List.take_append_drop (8 + len) buf, headOf_append _ (by rw [hhead]; exact nofun), hhead] at hwait
    cases hwait
  rw [List.length_append, List.length_singleton] at hn ⊢
  omega

/-! ## SCAN (R84) -/

theorem scan_nil (cfg : Config) : scan cfg [] = ([], []) := scan_of_bufOk rfl

/-- R84's equations: each of its tests fixes what stands at the head. -/
theorem scan_equations (p : Params) (xs : List Byte) : ScanEquations p xs := by
  cases xs with
  | nil => exact scan_nil _
  | cons b tl =>
    unfold ScanEquations
    generalize hL : ((b :: tl).getD 6 0).toNat = L
    rw [if_neg (by simp), List.getD_cons_zero, List.drop_one, List.tail_cons]
    split_ifs with hsync h7 hlen hall hchk
    · exact scan_reject (headOf_resync hsync tl)
    all_goals obtain rfl : b = SYNC := not_not.mp hsync
    · exact scan_of_bufOk (bufOk_iff.mpr (.inr ⟨rfl, .inl h7⟩))
    all_goals simp only [List.length_cons] at h7
    · rw [List.getD_cons_succ] at hL ⊢
      exact scan_reject (headOf_lenError (by omega) (hL ▸ hlen))
    · exact scan_of_bufOk (bufOk_iff.mpr (.inr ⟨rfl, .inr (by simp only [List.length_cons] at hall ⊢; omega)⟩))
    all_goals
      simp only [List.length_cons] at hall
      rw [show 7 + L = (6 + L) + 1 by omega, List.getD_cons_succ] at hchk
    · exact scan_reject (headOf_checksumMismatch hL (by omega) (by omega) hchk)
    · exact scan_envelope ((headOf_complete hL (by omega) (by omega)).trans (if_pos (not_not.mp hchk)))

/-- Settles O27: SCAN as an operation answers the scan, which satisfies R84's equations. -/
theorem scanFollowsItsEquations : Obligations.ScanFollowsItsEquations :=
  fun s xs => ⟨rfl, scan_equations s.par xs⟩

/-- Settles O28: the pushed bytes give the scan of the buffer with them behind it, step by step. -/
theorem pushingBytesIsScanningThem : Obligations.PushingBytesIsScanningThem :=
  fun s xs hb hs => ⟨scan_equations s.par (s.buf ++ xs), runItems_chunk (s := s.given (Instr.chunk xs)) hs hb rfl⟩

/-- A scan gives no item exactly where the framer waits. -/
theorem scan_items_eq_nil_iff (cfg : Config) (bs : List Byte) : (scan cfg bs).1 = [] ↔ bufOk bs = true := by
  rw [← headOf_wait_iff (chk := cfg.chk)]
  cases hhead : headOf cfg.chk bs with
  | wait => simp [scan_wait hhead]
  | reject e =>
    obtain ⟨b, tl, rfl, -⟩ := headOf_reject hhead
    simp [scan_reject hhead]
  | envelope len => simp [scan_envelope hhead]

/-! ## A PUSH by what the buffer holds (R80, R13) -/

/-- A PUSH after which the framer still waits only appends its byte. -/
theorem exec_push_of_bufOk {s : State} {b : Byte} (hb : s.begun = true) (h : bufOk (s.buf ++ [b]) = true) :
    exec (.push b) s = .next { s with buf := s.buf ++ [b], out := .items [] } := by
  rw [exec_push hb, scan_of_bufOk h]

/-- A PUSH after which the head is rejected: its event, then the scan of the bytes behind the head (R179). -/
theorem exec_push_of_reject {s : State} {b c : Byte} {body : List Byte} {e : Event} (hb : s.begun = true)
    (hbuf : s.buf ++ [b] = c :: body) (h : headOf s.cfg.chk (c :: body) = .reject e) :
    exec (.push b) s = .next { s with
      buf := (scan s.cfg body).2, out := .items (.ev e :: (scan s.cfg body).1) } := by
  rw [exec_push hb, hbuf, scan_reject h]

/-- Settles O21: any other byte than 0xAA is rejected at the head, and 0xAA alone is an incomplete candidate. -/
theorem pushAtAnEmptyBuffer : Obligations.PushAtAnEmptyBuffer := by
  intro s b hb hbuf
  have happend : s.buf ++ [b] = [b] := by rw [hbuf, List.nil_append]
  refine ⟨fun hne => ?_, ?_⟩
  · rw [exec_push_of_reject hb happend (headOf_resync hne []), scan_nil]
  · rintro rfl
    rw [exec_push_of_bufOk hb (by rw [happend]; rfl), happend]

/-- Settles O23: either test rejects the candidate at the head. -/
theorem rejectedCandidateIsRescanned : Obligations.RejectedCandidateIsRescanned := by
  intro s b body hb hbuf hn
  exact ⟨fun hlen => exec_push_of_reject hb hbuf (headOf_lenError hn hlen),
    fun L hL h8 hall hchk => exec_push_of_reject hb hbuf (headOf_checksumMismatch hL h8 hall hchk)⟩

/-- A started candidate with one byte more is still incomplete: short of the length byte, with a legal length byte just
read, or short of its end. -/
theorem bufOk_append_singleton {buf : List Byte} {b : Byte} (hok : bufOk buf = true) (h1 : 1 ≤ buf.length)
    (h : buf.length < 6 ∨ (buf.length = 6 ∧ b.toNat ≤ 8) ∨
      (7 ≤ buf.length ∧ buf.length < 7 + (buf.getD 6 0).toNat)) : bufOk (buf ++ [b]) = true := by
  obtain rfl | ⟨hhead, hlegal⟩ := bufOk_iff.mp hok
  · cases h1
  refine bufOk_iff.mpr (.inr ⟨by rw [List.head?_append, hhead]; rfl, ?_⟩)
  rw [List.length_append, List.length_singleton]
  obtain h6 | ⟨h6, hb⟩ | ⟨h7, hlt⟩ := h
  · exact .inl (by omega)
  · rw [List.getD_append_right _ _ _ _ (by omega), h6, Nat.sub_self, List.getD_cons_zero]
    exact .inr ⟨by omega, hb, by omega⟩
  · rw [List.getD_append _ _ _ _ (by omega)]
    exact .inr ⟨by omega, by omega, by omega⟩

/-- The byte behind a buffer in phase CHECK leaves no incomplete candidate. -/
theorem not_bufOk_append_of_check {buf : List Byte} {b : Byte} (h : phaseOf buf = .check) :
    ¬ bufOk (buf ++ [b]) = true := by
  have hcheck := (phaseOf_iff buf).2.2.2.mp h
  intro hok
  obtain ⟨-, hlength⟩ := bufOk_shape hok
  rw [List.length_append, List.length_singleton, List.getD_append _ _ _ _ (by omega)] at hlength
  omega

/-- Settles O22: before CHECK the appended buffer is an incomplete candidate, and in CHECK it is none. -/
theorem pushByPhase : Obligations.PushByPhase := by
  intro s b hb hs
  obtain ⟨-, hheader, hdata, -⟩ := phaseOf_iff s.buf
  refine ⟨fun hp h6 => ?_, fun hp h6 hb8 => ?_, fun hp => ?_, fun hp => ?_⟩
  · exact exec_push_of_bufOk hb (bufOk_append_singleton (hs hb) (hheader.mp hp).1 (.inl h6))
  · exact exec_push_of_bufOk hb (bufOk_append_singleton (hs hb) (hheader.mp hp).1 (.inr (.inl ⟨h6, hb8⟩)))
  · obtain ⟨h7, hlt⟩ := hdata.mp hp
    exact exec_push_of_bufOk hb (bufOk_append_singleton (hs hb) (by omega) (.inr (.inr ⟨h7, hlt⟩)))
  · refine ⟨_, _, exec_push hb b, rfl, ?_⟩
    rw [ne_eq, scan_items_eq_nil_iff]
    exact not_bufOk_append_of_check hp

/-! ## How much a PUSH outputs (R83, R91) -/

/-- Every frame of a scan accounts for 8 bytes at least. -/
theorem eight_mul_frames_le_length (cfg : Config) (xs : List Byte) :
    8 * (framesOf (scan cfg xs).1).length ≤ xs.length := by
  induction xs using scan_induct cfg with
  | wait bs h => simp [scan_wait h, framesOf]
  | reject b tl e h ih =>
    rw [scan_reject h, List.length_cons]
    exact Nat.le_succ_of_le ih
  | envelope bs len h ih =>
    obtain ⟨-, -, -, -, hn, -⟩ := headOf_envelope h
    rw [List.length_drop] at ih
    rw [scan_envelope h]
    show 8 * ((framesOf (scan cfg (bs.drop (8 + len))).1).length + 1) ≤ bs.length
    omega

/-- Behind a waiting buffer one byte gives at most one frame: it completes an envelope, which is then the whole buffer,
or a byte is rejected first, and at most 15 are left. -/
theorem framesOf_scan_append_le_one {cfg : Config} {buf : List Byte} (hbuf : bufOk buf = true) (b : Byte) :
    (framesOf (scan cfg (buf ++ [b])).1).length ≤ 1 := by
  have h15 := bufOk_length hbuf
  cases hhead : headOf cfg.chk (buf ++ [b]) with
  | wait => simp [scan_wait hhead, framesOf]
  | reject e =>
    obtain ⟨c, tl, heq, -⟩ := headOf_reject hhead
    have hlength := congrArg List.length heq
    rw [List.length_append, List.length_singleton, List.length_cons] at hlength
    have hframes := eight_mul_frames_le_length cfg tl
    rw [heq] at hhead
    rw [heq, scan_reject hhead]
    show (framesOf (scan cfg tl).1).length ≤ 1
    omega
  | envelope len =>
    have hall := length_of_headOf_append_envelope hbuf hhead
    rw [scan_envelope hhead, List.drop_of_length_le (Nat.le_of_eq hall), scan_nil]
    exact Nat.le_refl 1

/-- Settles O30: a PUSH that completes scans a waiting buffer with one byte behind it. -/
theorem pushGivesAtMostOneFrame : Obligations.PushGivesAtMostOneFrame := by
  intro s t b hs h
  obtain ⟨hitems, hb⟩ := exec_push_next h
  rw [hitems]
  exact framesOf_scan_append_le_one (hs hb) b

/-- Settles O31: it scans at most 16 bytes, and every item accounts for one. -/
theorem pushGivesAtMostSixteenItems : Obligations.PushGivesAtMostSixteenItems :=
  fun _ _ _ hs h => exec_push_itemList_length_le hs h

/-! ## Steps, session control and domains (R42, R80, R85, R86, V11) -/

/-- Settles O6: the completing PUSH scans an envelope with nothing behind it, whose item is its instruction's. -/
theorem stepRunsTheDecodedInstruction : Obligations.StepRunsTheDecodedInstruction := by
  refine ⟨fun s i ops hp => step_pending hp, fun s b i ops hb hp hdec => ?_⟩
  obtain ⟨it, hexec, hscan⟩ := scan_decode (s := { s with buf := [], pending := ops }) hdec
  rw [step_push hp hb, hscan, scan_nil, hexec]
  rfl

/-- Settles O18: both set the buffer and the output; FLUSH asks for a run that has begun. -/
theorem resetAndFlushEmptyTheBuffer : Obligations.ResetAndFlushEmptyTheBuffer :=
  fun _ => ⟨rfl, fun hb => afterReset_pos hb _⟩

/-- Settles O12: the check that an operation makes is its well-formedness; RAW tests its code first. -/
theorem outsideTheDomainIsRefused : Obligations.OutsideTheDomainIsRefused := by
  intro i s hw
  cases i with
  | push | reset | flush | scan => cases hw
  | raw c a =>
    simp only [exec, execRaw]
    split
    · rfl
    · next hc =>
      rw [Instr.wellFormed, Bool.eq_false_iff.mpr hc, Bool.not_false, Bool.true_and] at hw
      exact inDomain_neg hw s _
  | limits | socsoh | packvi | cellv | cellt | opstat | cycles | energy | text | alarm | opaqueCode =>
    exact inDomain_neg hw s _
  | envenc | iddec | idenc | decode | alarmdec | mkframe => exact inDomain_neg hw s _

/-! ## The envelope's bytes (R35, R81, R87) -/

/-- Four bytes read low byte first are their OR, each at its place (R33, R35). -/
theorem id32_LE_eq (b0 b1 i0 i1 i2 i3 : Byte) (tl : List Byte) :
    id32 .LE (b0 :: b1 :: i0 :: i1 :: i2 :: i3 :: tl) = BitVec.ofNat 32 (le4 i0 i1 i2 i3) := by
  have hread : le4 i0 i1 i2 i3 = memRead [i0, i1, i2, i3] 0 4 := (u32le_eq [i0, i1, i2, i3] 0).symm
  apply BitVec.eq_of_getLsbD_eq
  intro k hk
  rw [hread, BitVec.getLsbD_ofNat, memRead_testBit]
  simp only [id32, List.getD_cons_succ, List.getD_cons_zero]
  interval_cases k <;> simp

/-- The big-endian id field is the little-endian one of the bytes in reverse (R35). -/
theorem id32_BE_eq (b0 b1 i0 i1 i2 i3 : Byte) (tl : List Byte) :
    id32 .BE (b0 :: b1 :: i0 :: i1 :: i2 :: i3 :: tl) = id32 .LE (b0 :: b1 :: i3 :: i2 :: i1 :: i0 :: tl) := by
  have hreverse (a b c d : BitVec 32) : a ||| b ||| c ||| d = d ||| c ||| b ||| a := by
    rw [BitVec.or_comm _ d, BitVec.or_comm _ c, BitVec.or_comm a b, ← BitVec.or_assoc, ← BitVec.or_assoc]
  exact hreverse _ _ _ _

/-- A byte of the 32-bit id field that ENVENC writes for an identifier below 2^29 (R87). -/
theorem extractLsb'_setWidth_ofNat {id : Nat} (h : id < 2 ^ 29) (k : Nat) :
    ((BitVec.ofNat 29 id).setWidth 32).extractLsb' k 8 = BitVec.ofNat 8 (id / 2 ^ k) := by
  apply BitVec.eq_of_toNat_eq
  have hid : ((BitVec.ofNat 29 id).setWidth 32).toNat = id := by
    rw [BitVec.toNat_setWidth, BitVec.toNat_ofNat, Nat.mod_eq_of_lt h, Nat.mod_eq_of_lt (by omega)]
  rw [BitVec.extractLsb'_toNat, hid, Nat.shiftRight_eq_div_pow, BitVec.toNat_ofNat]

theorem idBytes_eq_idBytesOf (o : IdOrder) {id : Nat} (h : id < 2 ^ 29) :
    idBytes o ((BitVec.ofNat 29 id).setWidth 32) = idBytesOf o id := by
  have hlow : id / 2 ^ 0 = id := by rw [Nat.pow_zero, Nat.div_one]
  cases o <;> simp only [idBytes, idBytesOf, extractLsb'_setWidth_ofNat h, hlow]

/-- MKFRAME of eight bytes around a payload whose length stands in byte 6 (R81). -/
theorem mkFrame_bytes (o : IdOrder) (sync t i0 i1 i2 i3 k : Byte) {pay : List Byte} (h : pay.length ≤ 8) :
    mkFrame o (sync :: t :: i0 :: i1 :: i2 :: i3 :: BitVec.ofNat 8 pay.length :: (pay ++ [k])) =
      ⟨t, (id32 o (sync :: t :: i0 :: i1 :: i2 :: i3 :: BitVec.ofNat 8 pay.length :: (pay ++ [k]))).setWidth 29,
        pay.length, pay⟩ := by
  simp only [mkFrame, HDR_LEN, List.getD_cons_succ, List.getD_cons_zero, List.drop_succ_cons, List.drop_zero,
    toNat_lengthByte h, List.take_left]

/-- Settles O24: the list has an envelope's shape, and its id bytes are read in P_ID_ORDER. -/
theorem mkframeReadsTheEnvelope : Obligations.MkframeReadsTheEnvelope := by
  intro s sync t i0 i1 i2 i3 k pay h
  have hshape :
      envelopeShaped (sync :: t :: i0 :: i1 :: i2 :: i3 :: BitVec.ofNat 8 pay.length :: (pay ++ [k])) = true := by
    simp only [envelopeShaped, MAX_LEN, List.getD_cons_succ, List.getD_cons_zero, toNat_lengthByte h, List.length_cons,
      List.length_append, List.length_nil, Bool.and_eq_true, decide_eq_true_eq, beq_iff_eq]
    omega
  simp only [exec, execMkframe]
  rw [inDomain_pos hshape, mkFrame_bytes _ _ _ _ _ _ _ _ h, Params.config_idOrder]
  cases s.par.idOrder with
  | LE => rw [id32_LE_eq, BitVec.setWidth_ofNat_of_le (by decide)]; rfl
  | BE => rw [id32_BE_eq, id32_LE_eq, BitVec.setWidth_ofNat_of_le (by decide)]; rfl

/-- ENVENC on its domain, with the id bytes written from the number (R87). -/
theorem exec_envenc (s : State) (t : Option Byte) {id : Nat} {pay : List Byte} (hid : id < 2 ^ 29)
    (hpay : pay.length ≤ 8) :
    exec (.envenc t id pay) s = .next (valued s (.envelope
      (envenc s.cfg (t.getD s.par.txType) (BitVec.ofNat 29 id) pay))) :=
  inDomain_pos (Bool.and_eq_true_iff.mpr ⟨decide_eq_true hid, decide_eq_true hpay⟩) s _

/-- ENVENC's bytes: SYNC, the body, and P_CHK of the body (R87). -/
theorem envenc_eq (cfg : Config) (t : Byte) {id : Nat} (hid : id < 2 ^ 29) (pay : List Byte) :
    envenc cfg t (BitVec.ofNat 29 id) pay =
      0xAA :: ((t :: (idBytesOf cfg.idOrder id ++ (BitVec.ofNat 8 pay.length :: pay))) ++
        [cfg.chk (t :: (idBytesOf cfg.idOrder id ++ (BitVec.ofNat 8 pay.length :: pay)))]) := by
  rw [envenc, envelopeOf, idBytes_eq_idBytesOf _ hid]
  rfl

/-- Settles O26: on the domain ENVENC's bytes, outside it the refusal of an ill-formed operation. -/
theorem envencWritesTheEnvelope : Obligations.EnvencWritesTheEnvelope := by
  intro s t id pay
  refine ⟨fun hid hpay => ⟨_, rfl, ?_⟩, fun hout => inDomain_neg ?_ s _⟩
  · rw [exec_envenc s t hid hpay, envenc_eq _ _ hid]
    rfl
  · simp only [MAX_LEN, Bool.and_eq_false_iff, decide_eq_false_iff_not, Nat.not_lt, Nat.not_le]
    exact hout

/-! ## The default checksum (R82) -/

/-- A complete candidate decodes exactly when its last byte is the checksum of its body (R80, R82). -/
theorem decode_candidate_iff (cfg : Config) {body : List Byte} {len : Nat} (hbody : body.length = 6 + len)
    (hlen : (body.getD 5 0).toNat = len) (h8 : len ≤ 8) (k : Byte) :
    (∃ i, decode cfg (SYNC :: (body ++ [k])) = .instr i []) ↔ k = cfg.chk body := by
  constructor
  · rintro ⟨i, hdec⟩
    obtain ⟨n, hhead, -⟩ := decode_instr hdec
    have hn : 7 + len ≤ (body ++ [k]).length := by
      rw [List.length_append, List.length_singleton]
      omega
    rw [headOf_complete (by rw [List.getD_append _ _ _ _ (by omega), hlen]) h8 hn, ← hbody, List.take_left,
      List.getD_append_right _ _ _ _ (Nat.le_refl _), Nat.sub_self, List.getD_cons_zero] at hhead
    split at hhead
    · next hchk => exact hchk
    · cases hhead
  · rintro rfl
    have hhead := headOf_sync_body_chk (chk := cfg.chk) hbody hlen h8
    have hdrop : (SYNC :: (body ++ [cfg.chk body])).drop (8 + len) = [] :=
      List.drop_of_length_le (by simp only [List.length_cons, List.length_append, List.length_nil]; omega)
    rw [decode, hhead]
    dsimp only
    rw [hdrop]
    exact ⟨_, rfl⟩

/-- Settles O25: both are P_CHK of the body, and the body's byte sum is written out. -/
theorem defaultChecksumIsTheByteSum : Obligations.DefaultChecksumIsTheByteSum := by
  intro s t pay hsum hpay
  have hchk : s.par.chk.apply = sum8 := by
    rw [hsum]
    rfl
  refine ⟨fun id hid => ⟨_, rfl, ?_⟩, fun i0 i1 i2 i3 k => ?_⟩
  · rw [exec_envenc s _ hid hpay, envenc_eq _ _ hid, Params.config_chk, hchk]
    rfl
  · have hdec := decode_candidate_iff s.cfg (body := t :: i0 :: i1 :: i2 :: i3 :: BitVec.ofNat 8 pay.length :: pay)
      (by simp only [List.length_cons]; omega) (toNat_lengthByte hpay) hpay k
    refine hdec.trans ?_
    rw [Params.config_chk, hchk, ← BitVec.toNat_inj]
    simp only [sum8, BitVec.toNat_ofNat, List.map_cons, List.sum_cons]
    omega

/-! ## The round trip of an envelope (R88) -/

/-- Pushed bytes give the items of their scan behind the buffer, whatever operations wait behind them. -/
theorem runItems_chunk_append {s : State} (hs : s.Inv) (hb : s.begun = true) {xs : List Byte} {ops : List Instr}
    (hp : s.pending = Instr.chunk xs ++ ops) :
    ∃ t, runItems xs.length s = some ((scan s.cfg (s.buf ++ xs)).1, t) ∧ t.buf = (scan s.cfg (s.buf ++ xs)).2 := by
  induction xs generalizing s with
  | nil =>
    rw [List.append_nil, scan_of_bufOk (hs hb)]
    exact ⟨s, rfl, rfl⟩
  | cons b xs ih =>
    have hstep := step_push hp hb
    obtain ⟨t, hrun, hbuf⟩ := ih (step_keeps_inv hs hstep) hb rfl
    have hscan := scan_append s.cfg xs (s.buf ++ [b])
    rw [List.append_assoc, List.singleton_append] at hscan
    refine ⟨t, ?_, ?_⟩
    · rw [List.length_cons, runItems_succ hstep, hrun, hscan]
      rfl
    · rw [hbuf, hscan]

/-- From an empty buffer the first n pushed bytes give the items of their scan. -/
theorem runItems_chunk_take {s : State} (hb : s.begun = true) (hbuf : s.buf = []) {xs : List Byte} {n : Nat}
    (hn : n ≤ xs.length) : ∃ t, runItems n (s.given (Instr.chunk xs)) = some ((scan s.cfg (xs.take n)).1, t) ∧
      t.buf = (scan s.cfg (xs.take n)).2 := by
  have hp : (s.given (Instr.chunk xs)).pending = Instr.chunk (xs.take n) ++ Instr.chunk (xs.drop n) := by
    rw [State.given_pending, Instr.chunk, Instr.chunk, Instr.chunk, ← List.map_append, List.take_append_drop]
  have hrun := runItems_chunk_append (s := s.given (Instr.chunk xs)) (inv_of_buf_nil hbuf) hb hp
  rw [List.length_take_of_le hn, State.given_buf, hbuf, List.nil_append] at hrun
  exact hrun

/-- The scan of an envelope by itself: its item, and nothing left (R84). -/
theorem scan_envelope_alone {cfg : Config} {e : List Byte} {len : Nat} (h : headOf cfg.chk e = .envelope len)
    (hlen : e.length = 8 + len) : scan cfg e = ([envelopeItem cfg e], []) := by
  rw [scan_envelope h, ← hlen, List.take_length, List.drop_length, scan_nil]

/-- Settles O36: before its last byte the envelope is an incomplete candidate, and the whole of it is its frame. -/
theorem envelopeRoundTrip : Obligations.EnvelopeRoundTrip := by
  intro s t id pay hb hbuf hid hpay
  have hexec := exec_envenc s (some t) hid hpay
  have hhead := headOf_envelopeOf s.cfg t ((BitVec.ofNat 29 id).setWidth 32) hpay
  have hframe := mkFrame_envelopeOf s.cfg t ((BitVec.ofNat 29 id).setWidth 32) hpay
  rw [BitVec.setWidth_setWidth_of_le _ (by decide), BitVec.setWidth_eq] at hframe
  have hlen := length_envelopeOf s.cfg t ((BitVec.ofNat 29 id).setWidth 32) pay
  rw [Option.getD_some, envenc] at hexec
  generalize envelopeOf s.cfg t ((BitVec.ofNat 29 id).setWidth 32) pay = e at hexec hhead hframe hlen
  obtain ⟨u, hbefore, -⟩ := runItems_chunk_take hb hbuf (xs := e) (Nat.sub_le _ 1)
  obtain ⟨v, hall, hv⟩ := runItems_chunk_take hb hbuf (xs := e) (Nat.le_refl _)
  rw [scan_wait (headOf_take_wait hhead (by omega))] at hbefore
  rw [List.take_length, scan_envelope_alone hhead hlen] at hall hv
  rw [envelopeItem, frameItem, hframe] at hall
  exact ⟨e, _, _, u, v, hexec, hbefore, hall, hv⟩

/-! ## Resynchronisation (R89) -/

/-- Bytes that are not the sync byte are rejected one by one, and the scan goes on behind them (R173). -/
theorem scan_resync (cfg : Config) {gs : List Byte} (h : ∀ g ∈ gs, g ≠ SYNC) (xs : List Byte) :
    scan cfg (gs ++ xs) = (gs.map (fun g => .ev (.resync g)) ++ (scan cfg xs).1, (scan cfg xs).2) := by
  induction gs with
  | nil => rfl
  | cons g gs ih =>
    obtain ⟨hg, hgs⟩ := List.forall_mem_cons.mp h
    rw [List.cons_append, scan_reject (headOf_resync hg _), ih hgs]
    rfl

/-- Settles O37: the bytes in front cost a Resync each, and the encoding decodes to its row, whose item it gives. -/
theorem resynchronisationRecovers : Obligations.ResynchronisationRecovers := by
  intro s gs e i hb hbuf hgs hw henc
  have hdec := decodeOfEncodeIsTheInstruction s.cfg i e [] hw henc
  rw [List.append_nil] at hdec
  obtain ⟨it, hexec, hscan⟩ := scan_decode hdec
  obtain ⟨u, hrun, hu⟩ := runItems_chunk_take hb hbuf (xs := gs ++ e) (Nat.le_refl _)
  rw [List.take_length, scan_resync s.cfg hgs, hscan, scan_nil] at hrun hu
  exact ⟨it, u, hexec, hrun, hu⟩

end Sys2Proof.Proofs

/-! Proofs of the family 41_identifier_codec: IDDEC and IDENC by the places of their fields, and their round trip (R100
to R102), and what of a frame reaches the decoder (R103). -/

namespace Sys2Proof.Proofs

open Sys2Proof.Machine Sys2Proof.Claims

/-! ## IDDEC and IDENC as operations (R100, R101) -/

/-- IDDEC on its domain. -/
theorem exec_iddec (s : State) {n : Nat} (h : n < 2 ^ 29) :
    exec (.iddec n) s = .next (valued s (.ident (iddec s.par.contUsed (BitVec.ofNat 29 n)))) :=
  inDomain_pos (decide_eq_true h) s _

/-- IDDEC of an identifier, given as a number. -/
theorem exec_iddec_toNat (s : State) (w : CanId) :
    exec (.iddec w.toNat) s = .next (valued s (.ident (iddec s.par.contUsed w))) := by
  rw [exec_iddec s w.isLt, BitVec.ofNat_toNat, BitVec.setWidth_eq]

/-- IDENC on its domain. -/
theorem exec_idenc (s : State) (p k : Bool) {c d r : Nat} (hc : c < 256) (hd : d < 256) (hr : r < 256) :
    exec (.idenc p c d r k) s =
      .next (valued s (.word (idenc ⟨p, BitVec.ofNat 8 c, BitVec.ofNat 8 d, BitVec.ofNat 8 r, k⟩))) :=
  inDomain_pos (by simp only [hc, hd, hr, decide_true, Bool.and_self]) s _

/-- IDENC of the fields of a parsed identifier, given as numbers. -/
theorem exec_idenc_fields (s : State) (f : Ident) :
    exec (.idenc f.pointToPoint f.commandCode.toNat f.destinationAddress.toNat f.sourceAddress.toNat f.continuation) s =
      .next (valued s (.word (idenc f))) := by
  rw [exec_idenc s _ _ f.commandCode.isLt f.destinationAddress.isLt f.sourceAddress.isLt]
  simp only [BitVec.ofNat_toNat, BitVec.setWidth_eq]

/-- A field of an identifier, read from its number by division (R100). -/
theorem extractLsb'_ofNat_eq_div {w n : Nat} (h : n < 2 ^ w) (start len : Nat) :
    (BitVec.ofNat w n).extractLsb' start len = BitVec.ofNat len (n / 2 ^ start) := by
  rw [BitVec.extractLsb', BitVec.toNat_ofNat, Nat.mod_eq_of_lt h, Nat.shiftRight_eq_div_pow]

/-- A bit of an identifier, read from its number by division (R100). -/
theorem getLsbD_ofNat_eq_div {w k : Nat} (h : k < w) (n : Nat) :
    (BitVec.ofNat w n).getLsbD k = decide (n / 2 ^ k % 2 = 1) := by
  rw [BitVec.getLsbD_ofNat, decide_eq_true h, Bool.true_and, Nat.testBit_eq_decide_div_mod_eq]

/-- Settles O7: each field of IDDEC is read from the number by division. -/
theorem iddecGivesTheFieldsByPlace : Obligations.IddecGivesTheFieldsByPlace := by
  intro s n h
  simp only [exec_iddec s h, iddec, extractLsb'_ofNat_eq_div h, getLsbD_ofNat_eq_div (show 28 < 29 by decide),
    getLsbD_ofNat_eq_div (show 3 < 29 by decide)]

/-! ## An identifier as the sum of its fields (R52, R101) -/

/-- A command row's identifier is the sum of its fields, each times the weight of its lowest bit: below each place the
lower fields fill no more than the bits there. -/
theorem frameArgs_id_eq_ofNat (a : FrameArgs) (c : Byte) : a.id c = BitVec.ofNat 29 (idNumber c a) := by
  have hsum : idNumber c a = 2 ^ 28 * a.ptp.toNat + (2 ^ 20 * c.toNat + (2 ^ 12 * a.dst.toNat +
      (2 ^ 4 * a.src.toNat + (2 ^ 3 * a.cont.toNat + a.low.toNat)))) := by
    unfold idNumber
    omega
  have hlow := a.low.isLt
  have hcont := a.cont.toNat_lt
  have hsrc := a.src.isLt
  have hdst := a.dst.isLt
  have hcode := c.isLt
  apply BitVec.eq_of_getLsbD_eq
  intro k hk
  rw [FrameArgs.id_getLsbD, idenc_getLsbD, BitVec.getLsbD_ofNat, hsum]
  iterate 5 rw [Nat.testBit_two_pow_mul_add _ (by omega)]
  simp only [BitVec.testBit_toNat, Nat.testBit_bool_toNat]
  interval_cases k <;> simp

/-- IDENC's identifier is that of a command row with bits 2..0 zero. -/
theorem idenc_eq_ofNat (f : Ident) : idenc f = BitVec.ofNat 29 (f.pointToPoint.toNat * 2 ^ 28 +
    f.commandCode.toNat * 2 ^ 20 + f.destinationAddress.toNat * 2 ^ 12 + f.sourceAddress.toNat * 2 ^ 4 +
    f.continuation.toNat * 2 ^ 3) := by
  have h := frameArgs_id_eq_ofNat
    ⟨0, f.pointToPoint, f.destinationAddress, f.sourceAddress, f.continuation, 0, []⟩ f.commandCode
  simpa [FrameArgs.id, idNumber] using h

/-- Settles O8: the fields are bytes, so their numbers are their own; a field outside its width fails IDENC's check. -/
theorem idencIsTheSumOfShiftedFields : Obligations.IdencIsTheSumOfShiftedFields := by
  intro s p k c d r
  refine ⟨fun hc hd hr => ?_, fun hout => outsideTheDomainIsRefused _ s ?_⟩
  · rw [exec_idenc s p k hc hd hr, idenc_eq_ofNat]
    simp only [BitVec.toNat_ofNat, Nat.mod_eq_of_lt hc, Nat.mod_eq_of_lt hd, Nat.mod_eq_of_lt hr]
  · simp only [Instr.wellFormed, Bool.and_eq_false_iff, decide_eq_false_iff_not, Nat.not_lt, or_assoc]
    exact hout

/-! ## The round trip (R102) -/

/-- IDENC of the fields of an identifier keeps every bit but 2..0. -/
theorem idenc_iddec (w : CanId) : idenc (iddec true w) = w &&& 0x1FFFFFF8 := by
  apply BitVec.eq_of_getLsbD_eq
  intro k hk
  rw [idenc_getLsbD, BitVec.getLsbD_and]
  simp only [iddec, BitVec.getLsbD_extractLsb', Bool.true_and]
  interval_cases k <;> simp

/-- Settles O9: the two compositions of the codec, each run as the two operations. -/
theorem identifierRoundTrip : Obligations.IdentifierRoundTrip := by
  refine ⟨fun s p k c d r hc hd hr hk => ?_, fun s n hn hu => ?_⟩
  · have hcont : (s.par.contUsed && k) = k := by
      obtain hu | rfl := hk
      · rw [hu, Bool.true_and]
      · exact Bool.and_false _
    refine ⟨_, exec_idenc s p k hc hd hr, ?_⟩
    rw [exec_iddec_toNat, iddec_idenc, hcont]
  · refine ⟨_, exec_iddec s hn, ?_⟩
    rw [exec_idenc_fields, hu, idenc_iddec]

/-! ## What reaches the decoder (R103) -/

/-- Delivering a frame shows it with its identifier fields and the result (R15, R16, R100). -/
theorem deliver_eq_shown (s : State) (c : Byte) {a : FrameArgs} (h : a.payload.length ≤ 8) (r : Result) :
    deliver c a r s = .next (shown s c a r) := by
  rw [deliver_pos h, frameItem, FrameArgs.frame, FrameArgs.iddec_id, frameArgs_id_eq_ofNat]
  rfl

/-- Executing a command row shows its frame with DECODE's result of the code and the payload (R16, R111). -/
theorem exec_instrOfCode_eq_shown (s : State) (c : Byte) {a : FrameArgs} (h : a.payload.length ≤ 8) :
    exec (instrOfCode c a) s = .next (shown s c a (decodePayload s.cfg c a.payload)) := by
  rw [exec_instrOfCode, deliver_eq_shown s c h]

/-- Settles O10: the result is DECODE's of the code and the payload, which the two frames share. -/
theorem onlyCodeAndPayloadReachTheDecoder : Obligations.OnlyCodeAndPayloadReachTheDecoder := by
  intro s c a b hpay h
  refine ⟨decodePayload s.cfg c a.payload, exec_instrOfCode_eq_shown s c h, ?_⟩
  rw [hpay] at h ⊢
  exact exec_instrOfCode_eq_shown s c h

end Sys2Proof.Proofs

/-! Proofs of the family 42_payload_decoder: DECODE against the command rows, the length test (R59, R111 to R113), and
what each row but ALARM shows of its payload (R120 to R131). -/

namespace Sys2Proof.Proofs

open Sys2Proof.Machine Sys2Proof.Claims

/-! ## DECODE and the command rows (R110 to R113) -/

/-- DECODE on its domain. -/
theorem exec_decode (s : State) (c : Byte) {pay : List Byte} (h : pay.length ≤ 8) :
    exec (.decode c pay) s = .next (valued s (.result (decodePayload s.cfg c pay))) :=
  inDomain_pos (decide_eq_true h) s _

theorem decodePayload_short (cfg : Config) {c : Byte} {pay : List Byte} (h : pay.length < reqLen c) :
    decodePayload cfg c pay = .insufficientData c (reqLen c) pay.length :=
  requireLen_short h _

theorem decodePayload_enough (cfg : Config) {c : Byte} {pay : List Byte} (h : reqLen c ≤ pay.length) :
    decodePayload cfg c pay = decodeBody cfg c pay :=
  requireLen_enough h _

/-- A payload below the required length gives the failure marker in the frame's own item (R112). -/
theorem failsBelow_instrOfCode (c : Byte) : FailsBelow (instrOfCode c) c (reqLen c) := by
  intro s a h
  rw [exec_instrOfCode_eq_shown s c (h.le.trans (reqLen_le c)), decodePayload_short s.cfg h]

/-- A payload with the required length gives the body of the row's code (R111). -/
theorem exec_instrOfCode_enough (s : State) (c : Byte) {a : FrameArgs} {pay : List Byte} (hpay : a.payload = pay)
    (hreq : reqLen c ≤ pay.length) (h8 : pay.length ≤ 8) :
    exec (instrOfCode c a) s = .next (shown s c a (decodeBody s.cfg c pay)) := by
  subst hpay
  rw [exec_instrOfCode_eq_shown s c h8, decodePayload_enough s.cfg hreq]

/-- Only `InsufficientData` is a failure (R172, R177). -/
theorem eq_insufficientData_of_isFailure {r : Result} (h : r.isFailure = true) :
    ∃ c q n, r = .insufficientData c q n := by
  cases r with
  | insufficientData c q n => exact ⟨c, q, n, rfl⟩
  | _ => cases h

theorem decodeBody_isFailure (cfg : Config) (c : Byte) (pay : List Byte) :
    (decodeBody cfg c pay).isFailure = false := by
  rw [Bool.eq_false_iff]
  intro h
  obtain ⟨k, q, n, hr⟩ := eq_insufficientData_of_isFailure h
  exact decodeBody_ne_insufficientData cfg c pay k q n hr

/-- A result that is no failure is the body of the code. -/
theorem decodePayload_eq_decodeBody {cfg : Config} {c : Byte} {pay : List Byte}
    (h : (decodePayload cfg c pay).isFailure = false) : decodePayload cfg c pay = decodeBody cfg c pay := by
  obtain hlt | hge := Nat.lt_or_ge pay.length (reqLen c)
  · rw [decodePayload_short cfg hlt] at h
    cases h
  · exact decodePayload_enough cfg hge

/-- A code without a row of its own decodes to the copied payload (R131). -/
theorem decodeBody_unknown (cfg : Config) {c : Byte} (h : c ∉ namedCodes) (pay : List Byte) :
    decodeBody cfg c pay = .raw c pay := by
  simp only [namedCodes, List.mem_cons, List.not_mem_nil, or_false, not_or] at h
  simp only [decodeBody, h, if_false]

/-- The tag that R172 gives the results of a row. -/
def tagOfMnemonic (m : String) : BitVec 4 :=
  match m with
  | "LIMITS" => 0 | "SOCSOH" => 1 | "PACKVI" => 2 | "CELLV" => 3 | "CELLT" => 4 | "OPSTAT" => 5
  | "CYCLES" => 6 | "ENERGY" => 7 | "TEXT" => 8 | "ALARM" => 9 | "OPAQUE" => 10 | _ => 11

/-- The body of a code has the tag of the code's row (R111, R172). -/
theorem decodeBody_tag (cfg : Config) (c : Byte) (a : FrameArgs) (pay : List Byte) :
    (decodeBody cfg c pay).tag = tagOfMnemonic (instrOfCode c a).mnemonic := by
  refine instrOfCode_cases (P := fun c i => (decodeBody cfg c pay).tag = tagOfMnemonic i.mnemonic) c a
    rfl rfl rfl rfl rfl rfl rfl rfl rfl rfl rfl fun hc => ?_
  rw [decodeBody_unknown cfg hc]
  rfl

/-- Settles O38: DECODE and the row's meaning answer the same result; unless it is a failure it is the code's body. -/
theorem decodeDispatchesByCode : Obligations.DecodeDispatchesByCode := by
  intro s c a h
  refine ⟨_, exec_decode s c h, exec_instrOfCode_eq_shown s c h, fun hok => ?_⟩
  rw [decodePayload_eq_decodeBody hok]
  exact decodeBody_tag s.cfg c a a.payload

/-- Settles O39: the length test comes before the body, and the failure marker has no number. -/
theorem shortPayloadIsInsufficientData : Obligations.ShortPayloadIsInsufficientData := by
  refine ⟨fun s c a h => ⟨?_, failsBelow_instrOfCode c s a h, reqLen_le c, rfl⟩, fun c => ?_⟩
  · rw [exec_decode s c (h.le.trans (reqLen_le c)), decodePayload_short s.cfg h]
  · have hcode {n : Nat} (h : c.toNat = n) : c = BitVec.ofNat 8 n := by
      rw [← h, BitVec.ofNat_toNat, BitVec.setWidth_eq]
    split
    case h_10 =>
      by_contra hpos
      obtain rfl | rfl | rfl | rfl | rfl | rfl | rfl | rfl | rfl := reqLen_pos (Nat.pos_of_ne_zero hpos)
      all_goals contradiction
    all_goals
      next h =>
        rw [hcode h]
        rfl

/-- Settles O40: the body reads nothing behind the required length. -/
theorem extraPayloadBytesAreIgnored : Obligations.ExtraPayloadBytesAreIgnored := by
  intro s c pay extra hc hreq h8
  have hpos : 0 < reqLen c := (by decide : ∀ c ∈ ([0x81, 0x82, 0x85, 0x86] : List Byte), 0 < reqLen c) c hc
  have hle : pay.length ≤ (pay ++ extra).length := by rw [List.length_append]; exact Nat.le_add_right _ _
  refine ⟨decodeBody s.cfg c pay, ?_, ?_, decodeBody_isFailure s.cfg c pay⟩
  · rw [exec_decode s c h8, decodePayload_enough s.cfg (hreq.trans hle), decodeBody_append extra hpos hreq]
  · rw [exec_decode s c (hle.trans h8), decodePayload_enough s.cfg hreq]

/-! ## Fields read from the payload's bytes (R33, R114) -/

theorem u16le_eq_le2 (pay : List Byte) (off : Nat) : u16le pay off = le2 (pay.getD off 0) (pay.getD (off + 1) 0) :=
  u16le_eq pay off

theorem toNat_u16le_eq_le2 (pay : List Byte) (off : Nat) :
    (BitVec.ofNat 16 (u16le pay off)).toNat = le2 (pay.getD off 0) (pay.getD (off + 1) 0) := by
  rw [toNat_u16le, u16le_eq_le2]

theorem toNat_u32le_eq_le4 (pay : List Byte) (off : Nat) : (BitVec.ofNat 32 (u32le pay off)).toNat =
    le4 (pay.getD off 0) (pay.getD (off + 1) 0) (pay.getD (off + 2) 0) (pay.getD (off + 3) 0) := by
  rw [toNat_u32le, u32le_eq, le4]

theorem s16_u16le_eq_signed16 (pay : List Byte) (off : Nat) :
    s16 (u16le pay off) = signed16 (le2 (pay.getD off 0) (pay.getD (off + 1) 0)) := by
  rw [u16le_eq_le2, s16, signed16]

theorem toInt_s16_eq_signed16 (pay : List Byte) (off : Nat) : (storeS16 (s16 (u16le pay off))).toInt =
    signed16 (le2 (pay.getD off 0) (pay.getD (off + 1) 0)) := by
  rw [toInt_s16, s16_u16le_eq_signed16]

theorem limitCurrent_value_eq (signed : Bool) (pay : List Byte) (off : Nat) :
    (limitCurrent signed (u16le pay off)).value =
      if signed then signed16 (le2 (pay.getD off 0) (pay.getD (off + 1) 0))
      else (le2 (pay.getD off 0) (pay.getD (off + 1) 0) : Int) := by
  rw [limitCurrent_value, s16_u16le_eq_signed16, u16le_eq_le2]

/-! ## The rows of unsigned fields and of 0x80 (R120, R121, R127, R128) -/

/-- Settles O44: the body on eight bytes, and the length test below. -/
theorem limitsResult : Obligations.LimitsResult := by
  refine ⟨fun s a b0 b1 b2 b3 b4 b5 b6 b7 hpay => ?_, failsBelow_instrOfCode 0x80, by unfold Scaled; decide⟩
  exact ⟨_, exec_instrOfCode_enough s 0x80 hpay le_rfl le_rfl, toNat_u16le_eq_le2 _ 0, toNat_u16le_eq_le2 _ 4,
    limitCurrent_value_eq _ _ 2, limitCurrent_value_eq _ _ 6⟩

/-- Settles O45: the body on six bytes and more, and the length test below. -/
theorem socSohResult : Obligations.SocSohResult := by
  refine ⟨fun s a b0 b1 b2 b3 b4 b5 more hmore hpay => ?_, failsBelow_instrOfCode 0x81, by unfold Scaled; decide⟩
  have hreq : 6 ≤ (b0 :: b1 :: b2 :: b3 :: b4 :: b5 :: more).length := by simp
  have h8 : (b0 :: b1 :: b2 :: b3 :: b4 :: b5 :: more).length ≤ 8 := by simp only [List.length_cons]; omega
  exact ⟨_, exec_instrOfCode_enough s 0x81 hpay hreq h8, toNat_u16le_eq_le2 _ 0, toNat_u16le_eq_le2 _ 2,
    toNat_u16le_eq_le2 _ 4⟩

/-- The execution of a row with four required bytes, on four to eight bytes. -/
theorem exec_instrOfCode_four (s : State) {c : Byte} (hc : reqLen c = 4) {a : FrameArgs} {b0 b1 b2 b3 : Byte}
    {more : List Byte} (hmore : more.length ≤ 4) (hpay : a.payload = b0 :: b1 :: b2 :: b3 :: more) :
    exec (instrOfCode c a) s = .next (shown s c a (decodeBody s.cfg c (b0 :: b1 :: b2 :: b3 :: more))) :=
  exec_instrOfCode_enough s c hpay (by simp [hc]) (by simp only [List.length_cons]; omega)

/-- Settles O51: the body on four bytes and more, and the length test below. -/
theorem cyclesResult : Obligations.CyclesResult := by
  refine ⟨fun s a b0 b1 b2 b3 more hmore hpay => ?_, failsBelow_instrOfCode 0x86, by unfold Scaled; decide⟩
  exact ⟨_, exec_instrOfCode_four s (c := 0x86) rfl hmore hpay, toNat_u16le_eq_le2 _ 0, toNat_u16le_eq_le2 _ 2⟩

/-- Settles O52: the body on eight bytes, and the length test below. -/
theorem energyResult : Obligations.EnergyResult := by
  refine ⟨fun s a b0 b1 b2 b3 b4 b5 b6 b7 hpay => ?_, failsBelow_instrOfCode 0x87, by unfold Scaled; decide⟩
  exact ⟨_, exec_instrOfCode_enough s 0x87 hpay le_rfl le_rfl, toNat_u32le_eq_le4 _ 0, toNat_u32le_eq_le4 _ 4⟩

/-! ## The power of command 0x82 (R122, R123) -/

/-- The power fits its 32 bits: the voltage is below 2^16 and the current's absolute value at most 2^15. -/
theorem decPackVI_power_bound (pay : List Byte) : u16le pay 0 * (s16 (u16le pay 2)).natAbs ≤ 2147450880 := by
  have hv := u16le_lt pay 0
  have hi := s16_range (u16le_lt pay 2)
  calc u16le pay 0 * (s16 (u16le pay 2)).natAbs
    _ ≤ 65535 * 32768 := Nat.mul_le_mul (by omega) (by omega)
    _ = 2147450880 := rfl

theorem decPackVI_power_toNat (pay : List Byte) :
    (decPackVI pay).power.toNat = u16le pay 0 * (s16 (u16le pay 2)).natAbs := by
  have h := decPackVI_power_bound pay
  rw [decPackVI, BitVec.toNat_ofNat, Nat.mod_eq_of_lt (by omega)]

theorem decPackVI_power_le (pay : List Byte) : (decPackVI pay).power.toNat ≤ 2147450880 := by
  rw [decPackVI_power_toNat]
  exact decPackVI_power_bound pay

/-- The power is the integer product of the two fields of its result (R123). -/
theorem decPackVI_power (pay : List Byte) : ((decPackVI pay).power.toNat : Int) =
    (decPackVI pay).voltage.toNat * |(decPackVI pay).current.toInt| := by
  have hv : (decPackVI pay).voltage.toNat = u16le pay 0 := toNat_u16le pay 0
  have hi : (decPackVI pay).current.toInt = s16 (u16le pay 2) := toInt_s16 pay 2
  rw [decPackVI_power_toNat, hv, hi, Nat.cast_mul, Int.natCast_natAbs]

/-- Settles O46: the body on four bytes and more, and the length test below. -/
theorem packViResult : Obligations.PackViResult := by
  refine ⟨fun s a b0 b1 b2 b3 more hmore hpay => ?_, failsBelow_instrOfCode 0x82, by unfold Scaled; decide⟩
  have hv : (decPackVI (b0 :: b1 :: b2 :: b3 :: more)).voltage.toNat = le2 b0 b1 := toNat_u16le_eq_le2 _ 0
  have hi : (decPackVI (b0 :: b1 :: b2 :: b3 :: more)).current.toInt = signed16 (le2 b2 b3) :=
    toInt_s16_eq_signed16 _ 2
  have hp := decPackVI_power (b0 :: b1 :: b2 :: b3 :: more)
  rw [hv, hi] at hp
  exact ⟨_, exec_instrOfCode_four s (c := 0x82) rfl hmore hpay, hv, hi, hp, decPackVI_power_le _⟩

theorem decodePayload_packVI {cfg : Config} {pay : List Byte} {r : PackVI}
    (h : decodePayload cfg 0x82 pay = .packVI r) : r = decPackVI pay := by
  have hok : (decodePayload cfg 0x82 pay).isFailure = false := by rw [h]; rfl
  rw [decodePayload_eq_decodeBody hok] at h
  exact (Result.packVI.inj h).symm

/-- Settles O47: the exponents 5 of the power and 1 of the two factors account for the divisor 1000. -/
theorem powerIsVoltageTimesCurrent : Obligations.PowerIsVoltageTimesCurrent := by
  intro cfg pay r h
  obtain rfl := decodePayload_packVI h
  refine ⟨decPackVI_power pay, decPackVI_power_le pay, ?_⟩
  have hten : |(10 : ℚ)| = 10 := abs_of_pos (by norm_num)
  rw [decPackVI_power]
  simp only [Field.physical, Field.exponent]
  push_cast
  rw [abs_div, hten]
  ring

/-! ## The differences of commands 0x83 and 0x84 (R114 c, R124, R125) -/

/-- Settles O48: the difference of two 16-bit numbers fits 17 signed bits. -/
theorem cellVResult : Obligations.CellVResult := by
  refine ⟨fun s a b0 b1 b2 b3 b4 b5 b6 b7 hpay => ?_, failsBelow_instrOfCode 0x83, by unfold Scaled; decide⟩
  have hdelta : (decCellV [b0, b1, b2, b3, b4, b5, b6, b7]).delta.toInt = (le2 b0 b1 : Int) - (le2 b4 b5 : Int) := by
    have hmax := u16le_lt [b0, b1, b2, b3, b4, b5, b6, b7] 0
    have hmin := u16le_lt [b0, b1, b2, b3, b4, b5, b6, b7] 4
    rw [decCellV, storeS17_toInt (by omega), u16le_eq_le2, u16le_eq_le2]
    rfl
  exact ⟨_, exec_instrOfCode_enough s 0x83 hpay le_rfl le_rfl, toNat_u16le_eq_le2 _ 0, ofNat_u8 _ 2, ofNat_u8 _ 3,
    toNat_u16le_eq_le2 _ 4, ofNat_u8 _ 6, ofNat_u8 _ 7, hdelta⟩

/-- Settles O49: the difference of two signed 16-bit numbers fits 17 signed bits. -/
theorem cellTResult : Obligations.CellTResult := by
  refine ⟨fun s a b0 b1 b2 b3 b4 b5 b6 b7 hpay => ?_, failsBelow_instrOfCode 0x84, by unfold Scaled; decide⟩
  have hdelta : (decCellT [b0, b1, b2, b3, b4, b5, b6, b7]).delta.toInt =
      signed16 (le2 b0 b1) - signed16 (le2 b4 b5) := by
    have hmax := s16_range (u16le_lt [b0, b1, b2, b3, b4, b5, b6, b7] 0)
    have hmin := s16_range (u16le_lt [b0, b1, b2, b3, b4, b5, b6, b7] 4)
    rw [decCellT, storeS17_toInt (by omega), s16_u16le_eq_signed16, s16_u16le_eq_signed16]
    rfl
  exact ⟨_, exec_instrOfCode_enough s 0x84 hpay le_rfl le_rfl, toInt_s16_eq_signed16 _ 0, ofNat_u8 _ 2, ofNat_u8 _ 3,
    toInt_s16_eq_signed16 _ 4, ofNat_u8 _ 6, ofNat_u8 _ 7, hdelta⟩

/-! ## The indications of command 0x85 (R72, R126) -/

/-- A prohibition flag compares its bit, read from the number by division, with its configured value (R72). -/
theorem prohibited_eq_div (p : FlagPos) (flags : Byte) :
    prohibited p flags = (flags.toNat / 2 ^ p.bit.val % 2 == p.prohibitedWhen.toNat) := by
  rw [← Nat.toNat_testBit, prohibited, BitVec.getLsbD]
  cases flags.toNat.testBit p.bit <;> cases p.prohibitedWhen <;> rfl

/-- Settles O50: the body on four bytes and more, and the length test below. -/
theorem opStatResult : Obligations.OpStatResult := by
  refine ⟨fun s a b0 b1 b2 b3 more hmore hpay => ?_, failsBelow_instrOfCode 0x85⟩
  simp only [← prohibited_eq_div]
  refine (exec_instrOfCode_four s (c := 0x85) rfl hmore hpay).trans ?_
  show Host.Outcome.next (shown s 0x85 a (.opStatus (decOpStatus _ _ _ _))) = _
  simp only [decOpStatus, ofNat_u8]
  rfl

/-! ## The rows that copy bytes (R129 to R131) -/

/-- TEXT keeps every byte but zero as often as it stood (R129). -/
theorem count_decText (pay : List Byte) (b : Byte) : (decText pay).count b = if b = 0 then 0 else pay.count b := by
  split
  · next hb => exact List.count_eq_zero_of_not_mem (by simp [decText, hb])
  · next hb => exact List.count_filter (by simpa using hb)

/-- TEXT removes as many bytes as the payload has zeros (R129). -/
theorem length_decText (pay : List Byte) : (decText pay).length = pay.length - pay.count 0 := by
  have h := List.length_eq_countP_add_countP (· == (0 : Byte)) (l := pay)
  have hkept : (decText pay).length = pay.countP fun b => decide ¬(b == 0) = true := by
    rw [decText, ← List.countP_eq_length_filter]
    exact List.countP_congr fun b _ => by simp
  rw [hkept, List.count]
  omega

/-- Settles O53: TEXT is a filter, and it has no required length. -/
theorem textResult : Obligations.TextResult :=
  fun s a h =>
    ⟨decText a.payload, deliver_eq_shown s 0x8F h _, List.filter_sublist, count_decText _, length_decText _⟩

/-- RAW, of a code that is none of the eleven, shows the code and the payload (R131). -/
theorem exec_raw (s : State) {c : Byte} (hc : c ∉ namedCodes) {a : FrameArgs} (h : a.payload.length ≤ 8) :
    exec (.raw c a) s = .next (shown s c a (.raw c a.payload)) :=
  (if_neg (by simpa using hc)).trans (deliver_eq_shown s c h _)

/-- Settles O54: both rows deliver the payload they were given. -/
theorem opaqueAndRawCopyThePayload : Obligations.OpaqueAndRawCopyThePayload :=
  fun s _ _ h => ⟨deliver_eq_shown s 0xD0 h _, fun hc => exec_raw s hc h, rfl, rfl⟩

end Sys2Proof.Proofs

/-! Proofs of the family 43_alarm_decoder: the severity table (R151), the highest severity by masks (R152), and the rows
ALARM and ALARMDEC (R150). -/

namespace Sys2Proof.Proofs

open Sys2Proof.Machine Sys2Proof.Claims

/-! ## The severity table (R151) -/

/-- The table by its two lists and its default clause (R151). -/
theorem sev_eq : ∀ b < 64,
    sev b = if b ∈ [0, 1, 14] ∨ 18 ≤ b ∧ b ≤ 32 then 3 else if 2 ≤ b ∧ b ≤ 9 then 2 else 1 := by
  decide

/-- Settles O56: the entries position by position, and the table's counts. -/
theorem severityTable : Obligations.SeverityTable :=
  ⟨sev_eq, rfl, rfl, rfl, rfl⟩

/-! ## The highest severity by masks (R152) -/

/-- A mask meets another exactly when one of its active positions is set there. -/
theorem and_ne_zero_iff_activeBits (mask m : U64) :
    mask &&& m ≠ 0 ↔ ∃ k ∈ activeBits mask, m.getLsbD k = true := by
  constructor
  · intro hne
    by_contra! hnone
    refine hne (BitVec.eq_of_getLsbD_eq fun k hk => ?_)
    refine Eq.trans ?_ BitVec.getLsbD_zero.symm
    rw [BitVec.getLsbD_and, Bool.and_eq_false_imp]
    exact fun hbit => Bool.eq_false_iff.mpr (hnone k (mem_activeBits.mpr ⟨hk, hbit⟩))
  · rintro ⟨k, hk, hm⟩ hzero
    have hbit := congrArg (·.getLsbD k) hzero
    simp [(mem_activeBits.mp hk).2, hm] at hbit

/-- The highest severity reaches n exactly when the mask meets the set of the positions whose severity does. -/
theorem le_maxSev_activeBits_iff {n : Nat} (hn : 0 < n) {m : U64} (hm : ∀ k < 64, m.getLsbD k = decide (n ≤ sev k))
    (mask : U64) : n ≤ maxSev (activeBits mask) ↔ mask &&& m ≠ 0 := by
  rw [le_maxSev hn, and_ne_zero_iff_activeBits]
  refine exists_congr fun k => and_congr_right fun hk => ?_
  rw [hm k (mem_activeBits.mp hk).1, decide_eq_true_iff]

/-- The highest severity of a mask's positions is R152's closed form. -/
theorem maxSev_activeBits (mask : U64) : maxSev (activeBits mask) = closedSeverity mask := by
  have h4 := le_maxSev_activeBits_iff (n := 4) (m := 0) (by decide) (by decide) mask
  have h3 := le_maxSev_activeBits_iff (n := 3) (m := 0x00000001FFFC4003) (by decide) (by decide) mask
  have h2 := le_maxSev_activeBits_iff (n := 2) (m := 0x00000001FFFC4003 ||| 0x00000000000003FC) (by decide) (by decide)
    mask
  have h1 := le_maxSev_activeBits_iff (n := 1) (m := BitVec.allOnes 64) (by decide) (by decide) mask
  have hle : maxSev (activeBits mask) ≤ 3 := by
    by_contra! hlt
    exact h4.mp hlt BitVec.and_zero
  rw [BitVec.and_allOnes] at h1
  rw [BitVec.and_or_distrib_left] at h2
  unfold closedSeverity
  split
  · next hA => exact Nat.le_antisymm hle (h3.mpr hA)
  · next hA =>
    have hzero : mask &&& 0x00000001FFFC4003 = 0#64 := not_not.mp hA
    rw [hzero, BitVec.zero_or] at h2
    rw [← h3] at hA
    simp only [← h2, ← h1]
    split_ifs <;> omega

/-! ## The rows (R150) -/

/-- ALARMDEC on its domain. -/
theorem exec_alarmdec (s : State) {pay : List Byte} (h : pay.length = 8) :
    exec (.alarmdec pay) s = .next (valued s (.result (.alarm (alarmDec pay)))) :=
  inDomain_pos (beq_iff_eq.mpr h) s _

/-- ALARMDEC's value is the alarm set of its payload (R150, R152). -/
theorem alarmDec_isAlarmSetOf (pay : List Byte) : IsAlarmSetOf (alarmDec pay) pay := by
  refine ⟨fun k hk => ?_, activeBits_ascending _, fun _ => mem_activeBits, rfl, maxSev_activeBits _⟩
  rw [alarmDec_mask_bit, decide_eq_true hk, Bool.true_and]

/-- Settles O55: both rows give ALARMDEC's value of the payload; the length test is the row's own. -/
theorem alarmResult : Obligations.AlarmResult :=
  ⟨fun s _ h => ⟨_, exec_instrOfCode_enough s 0xC0 rfl h.ge h.le, exec_alarmdec s h, alarmDec_isAlarmSetOf _⟩,
    failsBelow_instrOfCode 0xC0⟩

end Sys2Proof.Proofs

/-! Proofs of the family 60_exceptions: where framer events come from and what they say (R171 to R175), and the
conditions of a result (R172, R176 to R178). -/

namespace Sys2Proof.Proofs

open Sys2Proof.Machine

/-! ## Framer events (R171 to R175) -/

/-- An operation kept to its domain outputs the item list of the value it is given. -/
theorem inDomain_itemList {ok : Bool} {s t : State} {o : Output} (h : inDomain ok s o = .next t) :
    t.out.itemList = o.itemList := by
  rw [(inDomain_next h).2, State.returns_out]

/-- A command row outputs one frame and no event (R16). -/
theorem deliver_ev_notMem {c : Byte} {a : FrameArgs} {r : Result} {s t : State} (h : deliver c a r s = .next t)
    (e : Event) : Item.ev e ∉ t.out.itemList := by
  rw [inDomain_itemList h]
  simp [Output.itemList, frameItem]

/-- An operation that outputs a framer event is a PUSH: a command row outputs its frame alone, RESET and FLUSH an empty
list, and the value of a pure function is no item list. -/
theorem eq_push_of_ev_mem {i : Instr} {s t : State} {e : Event} (h : exec i s = .next t)
    (he : Item.ev e ∈ t.out.itemList) : ∃ b, i = .push b := by
  cases i with
  | push b => exact ⟨b, rfl⟩
  | limits | socsoh | packvi | cellv | cellt | opstat | cycles | energy | text | alarm | opaqueCode =>
    exact absurd he (deliver_ev_notMem h e)
  | raw c a =>
    simp only [exec, execRaw] at h
    split at h
    · cases h
    · exact absurd he (deliver_ev_notMem h e)
  | reset | scan =>
    cases h
    cases he
  | flush =>
    rw [(afterReset_next h).2] at he
    cases he
  | envenc | iddec | idenc | decode | alarmdec | mkframe =>
    rw [inDomain_itemList h] at he
    cases he

/-- Every item of a scan accounts for a stretch of the stream (R30). -/
theorem exists_spells_of_mem_scan {cfg : Config} {xs : List Byte} {it : Item} (h : it ∈ (scan cfg xs).1) :
    ∃ seg, it.spells cfg seg := by
  obtain ⟨segs, hspells, -⟩ := scan_segments cfg xs
  obtain ⟨n, hn, rfl⟩ := List.mem_iff_getElem.mp h
  exact ⟨_, hspells.get hn (hspells.length_eq ▸ hn)⟩

/-- Settles O15: only a PUSH outputs an event, and the stretch the event accounts for says what stood at the head. -/
theorem framerEventsComeFromPushOnly : Obligations.FramerEventsComeFromPushOnly := by
  intro i s t e h he
  obtain ⟨b, rfl⟩ := eq_push_of_ev_mem h he
  rw [(exec_push_next h).1] at he
  obtain ⟨seg, hseg⟩ := exists_spells_of_mem_scan he
  refine ⟨⟨b, rfl⟩, ?resync, ?lenError⟩
  case resync =>
    rintro c rfl
    exact hseg.1
  case lenError =>
    rintro n rfl
    exact hseg.1

/-! ## The conditions of a result (R172, R176 to R178) -/

/-- R112's test alone makes a result a failure. -/
theorem decodePayload_isFailure_iff (cfg : Config) (c : Byte) (pay : List Byte) :
    (decodePayload cfg c pay).isFailure = true ↔ pay.length < reqLen c := by
  obtain hlt | hge := Nat.lt_or_ge pay.length (reqLen c)
  · rw [decodePayload_short cfg hlt]
    exact iff_of_true rfl hlt
  · rw [decodePayload_enough cfg hge, decodeBody_isFailure]
    exact iff_of_false Bool.false_ne_true (Nat.not_lt.mpr hge)

/-- The body of a named code carries no condition. -/
theorem decodeBody_condition_named (cfg : Config) {c : Byte} (h : c ∈ namedCodes) (pay : List Byte) :
    (decodeBody cfg c pay).condition = none := by
  simp only [namedCodes, List.mem_cons, List.not_mem_nil, or_false] at h
  obtain rfl | rfl | rfl | rfl | rfl | rfl | rfl | rfl | rfl | rfl | rfl := h
  all_goals rfl

/-- `UnknownCommand` is the condition of the codes without a row of their own, whatever the payload (R176). -/
theorem decodePayload_unknownCommand_iff (cfg : Config) (c : Byte) (pay : List Byte) :
    (decodePayload cfg c pay).condition = some .unknownCommand ↔ c ∉ namedCodes := by
  by_cases hc : c ∈ namedCodes
  · refine iff_of_false ?_ (not_not.mpr hc)
    obtain hlt | hge := Nat.lt_or_ge pay.length (reqLen c)
    · rw [decodePayload_short cfg hlt]
      exact nofun
    · rw [decodePayload_enough cfg hge, decodeBody_condition_named cfg hc]
      exact nofun
  · refine iff_of_true ?_ hc
    rw [decodePayload_enough cfg ((reqLen_unknown hc).trans_le (Nat.zero_le _)), decodeBody_unknown cfg hc]
    rfl

/-- Settles O41: the length test comes before the body, a body is never a failure, and an unknown code requires
nothing. -/
theorem resultConditionsAreExclusive : Obligations.ResultConditionsAreExclusive := by
  intro cfg c pay
  refine ⟨decodePayload_isFailure_iff cfg c pay, decodePayload_unknownCommand_iff cfg c pay, fun k q n h => ?_⟩
  obtain ⟨rfl, rfl, rfl, hlt⟩ := decodePayload_insufficientData h
  exact ⟨rfl, Nat.one_le_of_lt hlt, reqLen_le k, hlt, rfl⟩

end Sys2Proof.Proofs

/-! Proofs of the family 70_reset_and_hazards: on which operands and in which runs an operation completes (R190, V10,
V11), and that the cuts and the idle steps in a stream of pushed bytes do not matter (R40, R194). -/

namespace Sys2Proof.Proofs

open Sys2Proof.Machine

/-! ## Where an operation completes (R190, V10, V11) -/

/-- Settles O19: the two refusals are the test that a run has begun, and RESET is what begins it. -/
theorem runMustBeginWithReset : Obligations.RunMustBeginWithReset :=
  fun _ b hb => ⟨afterReset_neg hb _, afterReset_neg hb _, _, _, rfl, exec_push rfl b⟩

theorem isStep_iff (i : Instr) : isStep i = true ↔ (∃ b, i = .push b) ∨ i = .reset ∨ i = .flush := by
  cases i <;> simp [isStep]

/-- Only inside its domain does an operation complete: outside it is refused (V11). -/
theorem wellFormed_of_exec_next {i : Instr} {s t : State} (h : exec i s = .next t) : i.wellFormed = true := by
  by_contra hw
  rw [outsideTheDomainIsRefused i s (Bool.eq_false_iff.mpr hw)] at h
  cases h

/-- A step of the framer other than RESET completes only in a run that has begun (R190). -/
theorem begun_of_exec_next {i : Instr} {s t : State} (h : exec i s = .next t) :
    s.begun = true ∨ isStep i = false ∨ i = .reset := by
  cases hi : isStep i with
  | false => exact .inr (.inl rfl)
  | true =>
    obtain ⟨b, rfl⟩ | rfl | rfl := (isStep_iff i).mp hi
    · exact .inl (exec_push_next h).2
    · exact .inr (.inr rfl)
    · exact .inl (afterReset_next h).1

/-- A well-formed pure operation completes in every state: its well-formedness is the check that it makes, which for
RAW begins with its code. -/
theorem exec_pure_completes {i : Instr} (hi : isStep i = false) (hw : i.wellFormed = true) (s : State) :
    ∃ t, exec i s = .next t := by
  cases i with
  | push | reset | flush => cases hi
  | scan => exact ⟨_, rfl⟩
  | raw c a =>
    obtain ⟨hc, hpay⟩ := Bool.and_eq_true_iff.mp hw
    rw [Bool.not_eq_true'] at hc
    exact ⟨_, (if_neg (Bool.eq_false_iff.mp hc)).trans (inDomain_pos hpay s _)⟩
  | limits | socsoh | packvi | cellv | cellt | opstat | cycles | energy | text | alarm | opaqueCode =>
    exact ⟨_, inDomain_pos hw s _⟩
  | envenc | iddec | idenc | decode | alarmdec | mkframe => exact ⟨_, inDomain_pos hw s _⟩

/-- In a run that has begun every step of the framer completes (R85, R86). -/
theorem exec_step_completes {i : Instr} (hi : isStep i = true) {s : State} (hb : s.begun = true) :
    ∃ t, exec i s = .next t := by
  obtain ⟨b, rfl⟩ | rfl | rfl := (isStep_iff i).mp hi
  · exact ⟨_, exec_push hb b⟩
  · exact ⟨_, rfl⟩
  · exact ⟨_, afterReset_pos hb _⟩

/-- Settles O11: the domain decides for a pure operation, the beginning of the run for PUSH and FLUSH, and RESET asks
for neither. -/
theorem operationsCompleteExactlyOnTheirDomain : Obligations.OperationsCompleteExactlyOnTheirDomain := by
  intro i s
  constructor
  · rintro ⟨t, h⟩
    exact ⟨wellFormed_of_exec_next h, begun_of_exec_next h⟩
  · rintro ⟨hw, hrun⟩
    cases hi : isStep i with
    | false => exact exec_pure_completes hi hw s
    | true =>
      obtain hb | hpure | rfl := hrun
      · exact exec_step_completes hi hb
      · exact absurd (hi.symm.trans hpure) nofun
      · exact ⟨_, rfl⟩

/-! ## Cuts in a stream and idle steps between its bytes (R40, R194) -/

/-- The items of a run with more steps behind it stand in front of those of the steps behind. -/
theorem runItems_add {s t : State} {k : Nat} {l : List Item} (h : runItems k s = some (l, t)) (n : Nat) :
    runItems (k + n) s = (runItems n t).map fun p => (l ++ p.1, p.2) := by
  induction k generalizing s l with
  | zero =>
    cases h
    simp
  | succ k ih =>
    cases hstep : step s with
    | next u =>
      rw [runItems_succ hstep, Option.map_eq_some_iff] at h
      obtain ⟨⟨m, t'⟩, hrest, heq⟩ := h
      cases heq
      rw [Nat.add_right_comm, runItems_succ hstep, ih hrest, Option.map_map]
      simp [Function.comp_def]
    | fault => simp [runItems, hstep] at h
    | refused => simp [runItems, hstep] at h

/-- Steps with nothing pending give no item and change the output at most (R21). -/
theorem runItems_idle {s : State} (h : s.pending = []) (n : Nat) : ∃ o, runItems n s = some ([], s.returns o) := by
  induction n generalizing s with
  | zero => exact ⟨s.out, rfl⟩
  | succ n ih =>
    obtain ⟨o, hrest⟩ := ih (s := s.returns (.items [])) h
    refine ⟨o, ?_⟩
    rw [runItems_succ (step_idle h), hrest]
    rfl

/-- Idle steps behind a chunk add nothing to what its bytes give, and leave the buffer for what follows. -/
theorem runItems_chunk_idle {s : State} (hs : s.Inv) (hb : s.begun = true) (xs : List Byte) (n : Nat) :
    ∃ t, runItems (xs.length + n) (s.given (Instr.chunk xs)) = some ((scan s.cfg (s.buf ++ xs)).1, t) ∧
      t.buf = (scan s.cfg (s.buf ++ xs)).2 ∧ t.begun = true ∧ t.cfg = s.cfg := by
  obtain ⟨t, hrun, hbuf, hbegun, hpar, hpend⟩ := runItems_chunk (s := s.given (Instr.chunk xs)) hs hb rfl
  obtain ⟨o, hidle⟩ := runItems_idle hpend n
  refine ⟨t.returns o, ?_, hbuf, hbegun, congrArg Params.config hpar⟩
  rw [runItems_add hrun, hidle, Option.map_some, List.append_nil]
  rfl

/-- Settles O29: the second chunk is scanned behind what the first one left, which is how the scan of both goes on
(scan_append). -/
theorem chunkingDoesNotMatter : Obligations.ChunkingDoesNotMatter := by
  intro s xs ys n hb hs
  obtain ⟨t, hfirst, hbuf, hbegun, hcfg⟩ := runItems_chunk_idle hs hb xs n
  have ht : t.Inv := fun _ => hbuf ▸ scan_rest_ok _ _
  obtain ⟨u, hsecond, hu, -⟩ := runItems_chunk_idle ht hbegun ys 0
  obtain ⟨v, hwhole, hv, -⟩ := runItems_chunk_idle hs hb (xs ++ ys) 0
  rw [hcfg, hbuf] at hsecond hu
  rw [← List.append_assoc, scan_append] at hwhole hv
  exact ⟨_, _, t, u, v, hfirst, hsecond, hwhole, hu.trans hv.symm⟩

end Sys2Proof.Proofs
